-- ==== Sys2Proof/Word.lean ====
section
/-! DEFINITION. The two words of the DBF core: the sample cell of the pixel memory and the command descriptor. -/

namespace Sys2Proof

/-- One cell of the pixel memory: `CONTAINER = 16` bits (00_scope.md R5, 10_state.md R21). -/
abbrev Sample := BitVec 16

/-- One command descriptor `D[127:0]` (30_encoding.md R60). -/
abbrev Descriptor := BitVec 128

end Sys2Proof
end

