-- ==== Sys2Proof/Config.lean ====
section
/-! DEFINITION. What one implementation of the block fixes (00_scope.md R5, 92_eei_decisions.md "Open parameters"),
and the one free value of the model. `AW`, `SW` and `CONTAINER` are constants (90_conflicts.md C17) and stand in the
types; `N_ENGINES` is the length of `State.engines`; `T_CMD` has no meaning in an untimed model (70_reset_and_hazards.md
R256). -/

namespace Sys2Proof

/-- The open parameters of the block. They are data of the machine, so every claim that quantifies over states
quantifies over them; no step changes them. -/
structure Config where
  /-- `MEM_SAMPLES`, the number of samples in the pixel memory (20_memory.md R40). -/
  memSamples : Nat
  /-- `L`, the pixel lines per edge segment (45_orientation_adapter.md R173). -/
  linesPerSegment : Nat
  /-- `FLAT_INCLUDES_P1Q1` (40_mask_engine.md R91). -/
  flatIncludesP1Q1 : Bool
deriving DecidableEq, Repr

/-- The values at reset: `L = 4` and `FLAT_INCLUDES_P1Q1 = false` are the defaults of 00_scope.md R5. `MEM_SAMPLES` has
no default. DESIGN CHOICE, unsafe (assumption 2): the largest size R5 allows, `2^AW`. -/
def Config.default : Config :=
  { memSamples := 2 ^ 32, linesPerSegment := 4, flatIncludesP1Q1 := false }

/-- `N_ENGINES` at reset (00_scope.md R5: default 1). -/
def Config.defaultEngines : Nat := 1

/-- The bounds 00_scope.md R5 puts on the parameters: `MEM_SAMPLES ≤ 2^AW`, and a segment has at least one line. -/
abbrev Config.wf (c : Config) : Prop := c.memSamples ≤ 2 ^ 32 ∧ 1 ≤ c.linesPerSegment

/-- FREE VALUE (assumption 6, safe). Whether, at the reset numbered by the first argument, an interrupted command has
already written the sample address given by the second: "independently per address" (70_reset_and_hazards.md R242). -/
opaque Config.resetLanded : Nat → Nat → Bool

end Sys2Proof
end

