-- ==== Sys2Proof/Syntax.lean ====
section
/-! DEFINITION. The sixteen commands of 30_encoding.md R70 and the fields they carry (R62). -/

namespace Sys2Proof

/-- The filter width class (R63). -/
inductive Width | w4 | w6 | w8 | w14
deriving DecidableEq, Repr

/-- The edge orientation (R64). -/
inductive Orient | horizontal | vertical
deriving DecidableEq, Repr

/-- The sample bit depth (R66). -/
inductive Depth | d8 | d10 | d12
deriving DecidableEq, Repr

/-- One parameter triple of an edge segment: raw magnitudes `0 .. 255` (R67). -/
structure Params where
  blimit : Nat
  limit : Nat
  thresh : Nat
deriving DecidableEq, Repr

/-- The commands. A single command carries `DEPTH`, `BASE`, `STRIDE` and triple 0; a dual command also triple 1
(46_commands.md R192, R200). `BASE` and `STRIDE` are the integers R68 and R69 read from their fields. -/
inductive Instr
  | lpfH4 (depth : Depth) (base : Nat) (stride : Int) (par : Params)
  | lpfH6 (depth : Depth) (base : Nat) (stride : Int) (par : Params)
  | lpfH8 (depth : Depth) (base : Nat) (stride : Int) (par : Params)
  | lpfH14 (depth : Depth) (base : Nat) (stride : Int) (par : Params)
  | lpfV4 (depth : Depth) (base : Nat) (stride : Int) (par : Params)
  | lpfV6 (depth : Depth) (base : Nat) (stride : Int) (par : Params)
  | lpfV8 (depth : Depth) (base : Nat) (stride : Int) (par : Params)
  | lpfV14 (depth : Depth) (base : Nat) (stride : Int) (par : Params)
  | lpfH4D (depth : Depth) (base : Nat) (stride : Int) (par0 par1 : Params)
  | lpfH6D (depth : Depth) (base : Nat) (stride : Int) (par0 par1 : Params)
  | lpfH8D (depth : Depth) (base : Nat) (stride : Int) (par0 par1 : Params)
  | lpfH14D (depth : Depth) (base : Nat) (stride : Int) (par0 par1 : Params)
  | lpfV4D (depth : Depth) (base : Nat) (stride : Int) (par0 par1 : Params)
  | lpfV6D (depth : Depth) (base : Nat) (stride : Int) (par0 par1 : Params)
  | lpfV8D (depth : Depth) (base : Nat) (stride : Int) (par0 par1 : Params)
  | lpfV14D (depth : Depth) (base : Nat) (stride : Int) (par0 par1 : Params)
deriving DecidableEq, Repr

/-- The record `Cmd(width, orient, E, bd, par, stride, base)` that R73's decoding returns, the operand of the common
execution rule (46_commands.md R190). `dual` says `E = 2`; `par1` is used only then. -/
structure Cmd where
  width : Width
  orient : Orient
  dual : Bool
  depth : Depth
  par0 : Params
  par1 : Params
  stride : Int
  base : Nat
deriving DecidableEq, Repr

/-- Why a descriptor is reserved (R71). -/
inductive Reserved
  /-- (b) `RSV0 = D[15:6] ≠ 0`. -/
  | bits
  /-- (a) `DEPTH = 3`. -/
  | depth
  /-- (c) `DUAL = 0` and `D[63:40] ≠ 0`. -/
  | params
deriving DecidableEq, Repr

end Sys2Proof
end

