-- ==== Sys2Proof/WellFormed.lean ====
section
/-! DEFINITION. Which commands a descriptor can carry: each operand in the range of its field (30_encoding.md R62). -/

namespace Sys2Proof

/-- Each parameter is a byte, `0 .. 255` (R67). -/
def Params.wf (p : Params) : Bool :=
  decide (p.blimit < 256) && decide (p.limit < 256) && decide (p.thresh < 256)

/-- `BASE` is an unsigned 32-bit number (R68). -/
def baseWf (base : Nat) : Bool := decide (base < 2 ^ 32)

/-- `STRIDE` is a signed 32-bit number (R69). -/
def strideWf (stride : Int) : Bool := decide (-(2 ^ 31) ≤ stride) && decide (stride < 2 ^ 31)

/-- The operands of a single command fit their fields. -/
def singleWf (base : Nat) (stride : Int) (p : Params) : Bool := baseWf base && strideWf stride && p.wf

/-- The operands of a dual command fit their fields. -/
def dualWf (base : Nat) (stride : Int) (p q : Params) : Bool := singleWf base stride p && q.wf

/-- A command that has a descriptor. -/
def Instr.wf (i : Instr) : Bool :=
  match i with
  | .lpfH4 _ base stride p => singleWf base stride p
  | .lpfH6 _ base stride p => singleWf base stride p
  | .lpfH8 _ base stride p => singleWf base stride p
  | .lpfH14 _ base stride p => singleWf base stride p
  | .lpfV4 _ base stride p => singleWf base stride p
  | .lpfV6 _ base stride p => singleWf base stride p
  | .lpfV8 _ base stride p => singleWf base stride p
  | .lpfV14 _ base stride p => singleWf base stride p
  | .lpfH4D _ base stride p q => dualWf base stride p q
  | .lpfH6D _ base stride p q => dualWf base stride p q
  | .lpfH8D _ base stride p q => dualWf base stride p q
  | .lpfH14D _ base stride p q => dualWf base stride p q
  | .lpfV4D _ base stride p q => dualWf base stride p q
  | .lpfV6D _ base stride p q => dualWf base stride p q
  | .lpfV8D _ base stride p q => dualWf base stride p q
  | .lpfV14D _ base stride p q => dualWf base stride p q

end Sys2Proof
end

