-- ==== Sys2Proof/Decode.lean ====
section
/-! DEFINITION. The descriptor codec (30_encoding.md R62 to R73): decoding is total on 128-bit words and names why it
refuses one; `encode` is written from the same field table. -/

namespace Sys2Proof

/-- `D[lo + len - 1 : lo]` as an unsigned integer (00_scope.md R6). -/
def field (D : Descriptor) (lo len : Nat) : Nat := D.toNat / 2 ^ lo % 2 ^ len

/-- `sext_32` (00_scope.md R6). -/
def sext32 (v : Nat) : Int := if v < 2 ^ 31 then (v : Int) else (v : Int) - 2 ^ 32

/-- The `WIDTH` code, two bits: all four are legal (R63). -/
def Width.ofCode (v : Nat) : Width :=
  match v with
  | 0 => .w4
  | 1 => .w6
  | 2 => .w8
  | _ => .w14

/-- The `ORIENT` bit (R64). -/
def Orient.ofCode (v : Nat) : Orient := if v = 0 then .horizontal else .vertical

/-- The `DEPTH` code, two bits: code 3 is reserved (R66, R71). -/
def Depth.ofCode (v : Nat) : Option Depth :=
  match v with
  | 0 => some .d8
  | 1 => some .d10
  | 2 => some .d12
  | _ => none

/-- `STRIDE` (R69). -/
def strideField (D : Descriptor) : Int := sext32 (field D 64 32)

/-- `BASE` (R68). -/
def baseField (D : Descriptor) : Nat := field D 96 32

/-- `BLIMIT0`, `LIMIT0`, `THRESH0` (R62). -/
def par0Field (D : Descriptor) : Params :=
  { blimit := field D 16 8, limit := field D 24 8, thresh := field D 32 8 }

/-- `BLIMIT1`, `LIMIT1`, `THRESH1` (R62). -/
def par1Field (D : Descriptor) : Params :=
  { blimit := field D 40 8, limit := field D 48 8, thresh := field D 56 8 }

/-- The opcode map of R70: `{DUAL, ORIENT, WIDTH}` names one command. -/
def instrOf (dual : Bool) (o : Orient) (w : Width) (d : Depth) (base : Nat) (stride : Int) (p0 p1 : Params) : Instr :=
  match dual, o, w with
  | false, .horizontal, .w4 => .lpfH4 d base stride p0
  | false, .horizontal, .w6 => .lpfH6 d base stride p0
  | false, .horizontal, .w8 => .lpfH8 d base stride p0
  | false, .horizontal, .w14 => .lpfH14 d base stride p0
  | false, .vertical, .w4 => .lpfV4 d base stride p0
  | false, .vertical, .w6 => .lpfV6 d base stride p0
  | false, .vertical, .w8 => .lpfV8 d base stride p0
  | false, .vertical, .w14 => .lpfV14 d base stride p0
  | true, .horizontal, .w4 => .lpfH4D d base stride p0 p1
  | true, .horizontal, .w6 => .lpfH6D d base stride p0 p1
  | true, .horizontal, .w8 => .lpfH8D d base stride p0 p1
  | true, .horizontal, .w14 => .lpfH14D d base stride p0 p1
  | true, .vertical, .w4 => .lpfV4D d base stride p0 p1
  | true, .vertical, .w6 => .lpfV6D d base stride p0 p1
  | true, .vertical, .w8 => .lpfV8D d base stride p0 p1
  | true, .vertical, .w14 => .lpfV14D d base stride p0 p1

/-- R73, its three reserved checks in R73's order (which is also R222's order of report). -/
def decode (D : Descriptor) : Except Reserved Instr :=
  if field D 6 10 ≠ 0 then .error .bits
  else
    match Depth.ofCode (field D 4 2) with
    | none => .error .depth
    | some d =>
      if field D 3 1 = 0 ∧ field D 40 24 ≠ 0 then .error .params
      else
        .ok (instrOf (decide (field D 3 1 ≠ 0)) (Orient.ofCode (field D 2 1)) (Width.ofCode (field D 0 2)) d
          (baseField D) (strideField D) (par0Field D) (par1Field D))

/-- A single command as R73's record: `E = 1`, its unused second triple zero as in its encoding (R71 (c)). -/
def singleCmd (w : Width) (o : Orient) (d : Depth) (base : Nat) (stride : Int) (p : Params) : Cmd :=
  { width := w, orient := o, dual := false, depth := d, par0 := p, par1 := { blimit := 0, limit := 0, thresh := 0 },
    stride := stride, base := base }

/-- A dual command as R73's record: `E = 2`. -/
def dualCmd (w : Width) (o : Orient) (d : Depth) (base : Nat) (stride : Int) (p q : Params) : Cmd :=
  { width := w, orient := o, dual := true, depth := d, par0 := p, par1 := q, stride := stride, base := base }

/-- The record `Cmd(…)` of R73 for a command: the width, orientation and arity its opcode stands for (R70). -/
def Instr.cmd (i : Instr) : Cmd :=
  match i with
  | .lpfH4 d base stride p => singleCmd .w4 .horizontal d base stride p
  | .lpfH6 d base stride p => singleCmd .w6 .horizontal d base stride p
  | .lpfH8 d base stride p => singleCmd .w8 .horizontal d base stride p
  | .lpfH14 d base stride p => singleCmd .w14 .horizontal d base stride p
  | .lpfV4 d base stride p => singleCmd .w4 .vertical d base stride p
  | .lpfV6 d base stride p => singleCmd .w6 .vertical d base stride p
  | .lpfV8 d base stride p => singleCmd .w8 .vertical d base stride p
  | .lpfV14 d base stride p => singleCmd .w14 .vertical d base stride p
  | .lpfH4D d base stride p q => dualCmd .w4 .horizontal d base stride p q
  | .lpfH6D d base stride p q => dualCmd .w6 .horizontal d base stride p q
  | .lpfH8D d base stride p q => dualCmd .w8 .horizontal d base stride p q
  | .lpfH14D d base stride p q => dualCmd .w14 .horizontal d base stride p q
  | .lpfV4D d base stride p q => dualCmd .w4 .vertical d base stride p q
  | .lpfV6D d base stride p q => dualCmd .w6 .vertical d base stride p q
  | .lpfV8D d base stride p q => dualCmd .w8 .vertical d base stride p q
  | .lpfV14D d base stride p q => dualCmd .w14 .vertical d base stride p q

/-- R63. -/
def Width.code (w : Width) : Nat :=
  match w with
  | .w4 => 0
  | .w6 => 1
  | .w8 => 2
  | .w14 => 3

/-- R64. -/
def Orient.code (o : Orient) : Nat :=
  match o with
  | .horizontal => 0
  | .vertical => 1

/-- R66. -/
def Depth.code (d : Depth) : Nat :=
  match d with
  | .d8 => 0
  | .d10 => 1
  | .d12 => 2

/-- A parameter triple as the 24 bits it takes in the descriptor, `blimit` lowest (R62). -/
def Params.bits (p : Params) : Nat := p.blimit + p.limit * 2 ^ 8 + p.thresh * 2 ^ 16

/-- The descriptor of a record, as a number: the field table of R62, `RSV0` zero. -/
def Cmd.bits (c : Cmd) : Nat :=
  c.width.code + c.orient.code * 2 ^ 2 + (if c.dual then 1 else 0) * 2 ^ 3 + c.depth.code * 2 ^ 4
    + c.par0.bits * 2 ^ 16 + c.par1.bits * 2 ^ 40 + (c.stride % 2 ^ 32).toNat * 2 ^ 64 + c.base * 2 ^ 96

/-- The descriptor of a command (R62, R73). -/
def encode (i : Instr) : Descriptor := BitVec.ofNat 128 i.cmd.bits

/-- The host's reading of one row of the opcode table: the command port takes one 128-bit word (R60), whose bits above
`nbits` are zero. -/
def decodeTableWord (nbits w : Nat) : Option Instr :=
  match decode (BitVec.ofNat 128 (w % 2 ^ nbits)) with
  | .ok i => some i
  | .error _ => none

/-- The descriptor whose 32-bit words are `W0` to `W3`, least significant first (R62). -/
def ofWords (w0 w1 w2 w3 : BitVec 32) : Descriptor := w3 ++ w2 ++ w1 ++ w0

end Sys2Proof
end

