-- ==== Sys2Proof/Machine/State.lean ====
section
/-! DEFINITION. The complete state of a system of engines and one host (10_state.md R20): the pixel memory, and per
engine its status, its command latch and its working registers; beside them the parameters (00_scope.md R5), what the
outside world does next, and two fields of the model's own (`cur`, `freeCtr`). Plain data throughout. -/

namespace Sys2Proof.Machine

/-- Why the machine stops with a fault. The block itself raises none (60_exceptions.md R220); these two stop a script
of outside events that names something the machine does not have. -/
inductive Fault
  /-- Raised by `runCommand`, `issue` and `engineTurn` when an event names an engine that is not there
  (60_exceptions.md R228: there are `N_ENGINES` engines). Safe. -/
  | noSuchEngine
  /-- Raised by `hostRead` and `hostWrite` at an address that is not a sample of the pixel memory (20_memory.md R40, R41).
  Safe. -/
  | noSuchAddress
deriving DecidableEq, Repr

/-- The outcome a model gives to a violation of the caller contract: the closed list of 60_exceptions.md R223, and the
host's `notModelled`. Each is safe: the hardware's behaviour is undefined there and nothing can be proved of it. -/
inductive Refusal
  /-- An instruction whose arm has no meaning yet. No arm of this model answers it. Safe. -/
  | notModelled (mnemonic : String)
  /-- Raised by decoding: `D[15:6] ≠ 0` (30_encoding.md R71). Safe. -/
  | reservedBits
  /-- Raised by decoding: `DEPTH = 3` (30_encoding.md R71). Safe. -/
  | reservedDepth
  /-- Raised by decoding: a single command with `D[63:40] ≠ 0` (30_encoding.md R71). Safe. -/
  | reservedParams
  /-- Raised by `runCommand` and `issue`: a footprint address outside the memory (20_memory.md R46). Safe. -/
  | footprintOutOfRange
  /-- Raised by `runCommand` and `issue`: two footprint positions share an address (45_orientation_adapter.md R181).
  Safe. -/
  | footprintAlias
  /-- Raised by `runCommand` and `issue`: a footprint sample above `pmax(bd)` (20_memory.md R47). Safe. -/
  | sampleOutOfRange
  /-- Raised by `issue`, `hostRead` and `hostWrite`: an access to the footprint of a command in progress
  (20_memory.md R50, 70_reset_and_hazards.md R250, R254). Safe. -/
  | footprintOverlap
  /-- Raised by `issue`: a command presented to an engine that is `BUSY` (60_exceptions.md R229). Safe. -/
  | busyIssue
deriving DecidableEq, Repr

/-- The engine status `st` (10_state.md R28). -/
inductive Status | idle | busy
deriving DecidableEq, Repr

/-- The four decision Booleans of one pixel line (10_state.md R25). -/
structure Masks where
  mask : Bool
  hev : Bool
  flat : Bool
  flat2 : Bool
deriving DecidableEq, Repr

/-- The scaled thresholds `BL`, `LI`, `TH`, `FT` of one edge segment (10_state.md R23). -/
structure Thresholds where
  bl : Nat
  li : Nat
  th : Nat
  ft : Nat
deriving DecidableEq, Repr

/-- One side of a pixel line, indexed outward from the edge: `P[0..]` or `Q[0..]` (00_scope.md R12). -/
abbrev Side := List Nat

/-- The registers of one pixel line: the samples `P`, `Q`, the decision masks, the results `oP`, `oQ`
(10_state.md R22, R25). -/
structure LineRegs where
  p : Side
  q : Side
  masks : Masks
  oP : Side
  oQ : Side
deriving DecidableEq, Repr

/-- One engine (10_state.md R20): its status and `done` output, the command latch, the thresholds of the two segments,
the transposition scratch (one row per pixel line, outermost `p` sample first: assumption 21), and one set of line
registers per line in flight (R22). -/
structure Engine where
  st : Status
  done : Bool
  latch : Descriptor
  thr0 : Thresholds
  thr1 : Thresholds
  scratch : List Side
  lines : List LineRegs
deriving DecidableEq, Repr

/-- An engine after reset: `st = IDLE`, `done` deasserted (R30). The rest is "unspecified; unreadable" there; DESIGN
CHOICE, unsafe (assumption 4): zero, and no line or scratch row. -/
def Engine.reset : Engine :=
  { st := .idle, done := false, latch := 0, thr0 := { bl := 0, li := 0, th := 0, ft := 0 },
    thr1 := { bl := 0, li := 0, th := 0, ft := 0 }, scratch := [], lines := [] }

/-- The pixel memory: sample addresses with their samples, addresses rising, no entry equal to what an unlisted address
reads as (10_state.md R21). -/
abbrev Memory := List (Nat × Sample)

/-- One event of the outside world or of the interleaving of engines, in the order they happen. -/
inductive Input
  /-- The host asserts `cmd_valid` with descriptor `d` on engine `e`'s port (30_encoding.md R61). -/
  | issue (e : Nat) (d : Descriptor)
  /-- Engine `e` moves next: it performs the command it has accepted. -/
  | turn (e : Nat)
  /-- The host reads the sample at `a` (60_exceptions.md R229). -/
  | hostRead (a : Nat)
  /-- The host writes the sample at `a` (60_exceptions.md R229). -/
  | hostWrite (a : Nat) (v : Sample)
  /-- `rst_n` is asserted and released (70_reset_and_hazards.md R240). -/
  | reset
deriving DecidableEq, Repr

/-- The machine. -/
structure State where
  /-- The open parameters (00_scope.md R5); no step changes them. -/
  cfg : Config
  /-- The pixel memory (10_state.md R21). -/
  mem : Memory
  /-- The `N_ENGINES` engines (60_exceptions.md R228). -/
  engines : List Engine
  /-- The model's own: the engine whose turn it is. -/
  cur : Nat
  /-- What happens next, oldest first. -/
  inputs : List Input
  /-- The model's own: how many free values have been used. -/
  freeCtr : Nat
deriving DecidableEq, Repr

/-- The machine right after reset (R30, R240). The pixel memory is not the block's to reset: it lists nothing, which is
assumption 3. -/
def State.reset : State :=
  { cfg := Config.default, mem := [], engines := List.replicate Config.defaultEngines Engine.reset, cur := 0,
    inputs := [], freeCtr := 0 }

end Sys2Proof.Machine
end

