-- ==== Sys2Proof/Machine/Arith.lean ====
section
/-! DEFINITION. The arithmetic primitives of 00_scope.md R6 to R11. Every value is an exact integer; the only saturation
is `clampBd`. -/

namespace Sys2Proof

/-- `bd` (30_encoding.md R66). -/
def Depth.bd (d : Depth) : Nat :=
  match d with
  | .d8 => 8
  | .d10 => 10
  | .d12 => 12

/-- `sh(bd) = bd - 8` (R8). -/
def Depth.sh (d : Depth) : Nat := d.bd - 8

/-- `bias(bd) = 2^(bd-1)` (R8). -/
def Depth.bias (d : Depth) : Int := 2 ^ (d.bd - 1)

/-- `smin(bd) = -2^(bd-1)` (R8). -/
def Depth.smin (d : Depth) : Int := -(2 ^ (d.bd - 1))

/-- `smax(bd) = 2^(bd-1) - 1` (R8). -/
def Depth.smax (d : Depth) : Int := 2 ^ (d.bd - 1) - 1

/-- `pmax(bd) = 2^bd - 1` (R8). -/
def Depth.pmax (d : Depth) : Nat := 2 ^ d.bd - 1

namespace Machine

/-- `absdiff(a, b) = |a - b|` (R7). -/
def absdiff (a b : Int) : Int := (a - b).natAbs

/-- `satsub(a, b) = max(a - b, 0)` (R7), the form 40_mask_engine.md R89 compares with. -/
def satsub (a b : Int) : Int := max (a - b) 0

/-- `clamp_bd(v)` (R9). -/
def clampBd (d : Depth) (v : Int) : Int := min (max v d.smin) d.smax

/-- `asr(v, n) = floor(v / 2^n)` (R10): division by a positive number rounds toward minus infinity. -/
def asr (v : Int) (n : Nat) : Int := v / 2 ^ n

/-- `rnd(v, n) = asr(v + 2^(n-1), n)` (R11). -/
def rnd (v : Int) (n : Nat) : Int := asr (v + 2 ^ (n - 1)) n

end Machine
end Sys2Proof
end

