-- ==== Sys2Proof/Machine/Operands.lean ====
section
/-! DEFINITION. The operand forms of a command: the width class and what it reads and modifies (00_scope.md R5), the
address maps of the Orientation Adapter (45_orientation_adapter.md R171 to R175), and the scaled thresholds of a segment
(40_mask_engine.md R81). -/

namespace Sys2Proof

/-- The width class as a number: the samples of a pixel line the filter reads, both sides together (00_scope.md R14). -/
def Width.total (w : Width) : Nat :=
  match w with
  | .w4 => 4
  | .w6 => 6
  | .w8 => 8
  | .w14 => 14

/-- `K(width) = width / 2`, the samples read on each side (00_scope.md R5). -/
def Width.K (w : Width) : Nat := w.total / 2

/-- `M(width)`, the samples that can be modified on each side (00_scope.md R5). -/
def Width.M (w : Width) : Nat :=
  match w with
  | .w4 => 2
  | .w6 => 2
  | .w8 => 3
  | .w14 => 6

/-- `E`, the edge segments of a command (30_encoding.md R65). -/
def Cmd.segments (c : Cmd) : Nat := if c.dual then 2 else 1

/-- `N = E × L`, the pixel lines of a command (46_commands.md R190). -/
def Cmd.nLines (c : Cmd) (L : Nat) : Nat := c.segments * L

/-- `addrP(n, k)` (R171 horizontal, R172 vertical): exact, never reduced modulo `2^AW` (20_memory.md R46). -/
def Cmd.addrP (c : Cmd) (n k : Nat) : Int :=
  match c.orient with
  | .horizontal => c.base + n - (k + 1) * c.stride
  | .vertical => c.base + n * c.stride - (k + 1)

/-- `addrQ(n, k)` (R171 horizontal, R172 vertical). -/
def Cmd.addrQ (c : Cmd) (n k : Nat) : Int :=
  match c.orient with
  | .horizontal => c.base + n + k * c.stride
  | .vertical => c.base + n * c.stride + k

/-- The addresses of line `n`, outermost `p` first: the sequence `x[-K..K-1]` of 42_filter6_filter8.md R116. -/
def Cmd.lineAddrs (c : Cmd) (n : Nat) : List Int :=
  ((List.range c.width.K).map (c.addrP n)).reverse ++ (List.range c.width.K).map (c.addrQ n)

/-- The footprint `F(cmd)` (R174), line by line. -/
def Cmd.footprint (c : Cmd) (L : Nat) : List Int := (List.range (c.nLines L)).flatMap c.lineAddrs

/-- The addresses of line `n` that a command writes (R175). -/
def Cmd.lineWrites (c : Cmd) (n : Nat) : List Int :=
  (List.range c.width.M).map (c.addrP n) ++ (List.range c.width.M).map (c.addrQ n)

/-- The write set `W(cmd)` (R175), line by line. -/
def Cmd.writeSet (c : Cmd) (L : Nat) : List Int := (List.range (c.nLines L)).flatMap c.lineWrites

namespace Machine

/-- `BL`, `LI`, `TH`, `FT` of a triple at a depth (R81): the raw bytes and the flatness bound 1, shifted left by
`bd - 8`. -/
def scaleThresholds (d : Depth) (p : Params) : Thresholds :=
  { bl := p.blimit * 2 ^ d.sh, li := p.limit * 2 ^ d.sh, th := p.thresh * 2 ^ d.sh, ft := 1 * 2 ^ d.sh }

/-- The triple of the segment that line `n` belongs to, `e = n div L` (R173). -/
def segmentParams (c : Cmd) (L n : Nat) : Params := if n / L = 0 then c.par0 else c.par1

/-- `P[k]` or `Q[k]` of one side of a line, as an exact integer (00_scope.md R12). -/
def Side.px (l : Side) (k : Nat) : Int := ((l.getD k 0 : Nat) : Int)

end Machine
end Sys2Proof
end

