-- ==== Sys2Proof/Machine/Flags.lean ====
section
/-! DEFINITION. The Mask Engine (40_mask_engine.md): the four Booleans of one pixel line, the only flags of the block. -/

namespace Sys2Proof.Machine

/-- The step of index `k` on both sides: the larger of `|P[k] - P[k-1]|` and `|Q[k] - Q[k-1]|` (R82, R84). -/
def lineStep (p q : Side) (k : Nat) : Int := max (absdiff (p.px k) (p.px (k - 1))) (absdiff (q.px k) (q.px (k - 1)))

/-- The spread at index `k` on both sides: the larger of `|P[k] - P[0]|` and `|Q[k] - Q[0]|` (R86, R87). -/
def lineSpread (p q : Side) (k : Nat) : Int := max (absdiff (p.px k) (p.px 0)) (absdiff (q.px k) (q.px 0))

/-- `hev` (R82): strict. -/
def hevOf (t : Thresholds) (p q : Side) : Bool := decide (lineStep p q 1 > t.th)

/-- `blimit_term` (R83): the exact sum, not saturated. -/
def blimitTerm (t : Thresholds) (p q : Side) : Bool :=
  decide (2 * absdiff (p.px 0) (q.px 0) + asr (absdiff (p.px 1) (q.px 1)) 1 > t.bl)

/-- The largest argument of `limit_term` that is present at a width (R84). -/
def largestStep (w : Width) (p q : Side) : Int :=
  match w with
  | .w4 => lineStep p q 1
  | .w6 => max (lineStep p q 1) (lineStep p q 2)
  | .w8 => max (max (lineStep p q 1) (lineStep p q 2)) (lineStep p q 3)
  | .w14 => max (max (lineStep p q 1) (lineStep p q 2)) (lineStep p q 3)

/-- `limit_term` (R84). -/
def limitTerm (w : Width) (t : Thresholds) (p q : Side) : Bool := decide (largestStep w p q > t.li)

/-- `mask` (R85). -/
def maskOf (w : Width) (t : Thresholds) (p q : Side) : Bool := !blimitTerm t p q && !limitTerm w t p q

/-- The two arguments that `FLAT_INCLUDES_P1Q1` adds to `flat` (R86, R91); without it they add nothing to a largest
difference, which is never negative. -/
def innerSpread (includeP1Q1 : Bool) (p q : Side) : Int := if includeP1Q1 then lineSpread p q 1 else 0

/-- `flat` (R86): inclusive; there is no flat tier at width 4. -/
def flatOf (includeP1Q1 : Bool) (w : Width) (t : Thresholds) (p q : Side) : Bool :=
  match w with
  | .w4 => false
  | .w6 => maskOf w t p q && decide (max (innerSpread includeP1Q1 p q) (lineSpread p q 2) ≤ t.ft)
  | .w8 =>
    maskOf w t p q
      && decide (max (innerSpread includeP1Q1 p q) (max (lineSpread p q 2) (lineSpread p q 3)) ≤ t.ft)
  | .w14 =>
    maskOf w t p q
      && decide (max (innerSpread includeP1Q1 p q) (max (lineSpread p q 2) (lineSpread p q 3)) ≤ t.ft)

/-- `flat2` (R87): width 14 only. -/
def flat2Of (includeP1Q1 : Bool) (w : Width) (t : Thresholds) (p q : Side) : Bool :=
  match w with
  | .w4 => false
  | .w6 => false
  | .w8 => false
  | .w14 =>
    flatOf includeP1Q1 w t p q
      && decide (max (lineSpread p q 6) (max (lineSpread p q 5) (lineSpread p q 4)) ≤ t.ft)

/-- The Mask Engine (R80): a pure function of one line and its segment's thresholds. -/
def maskEngine (includeP1Q1 : Bool) (w : Width) (t : Thresholds) (p q : Side) : Masks :=
  { mask := maskOf w t p q, hev := hevOf t p q, flat := flatOf includeP1Q1 w t p q,
    flat2 := flat2Of includeP1Q1 w t p q }

end Sys2Proof.Machine
end

