-- ==== Sys2Proof/Machine/Filters.lean ====
section
/-! DEFINITION. The filter stages: Filter4 (41_filter4.md), the averages of Filter6 and Filter8
(42_filter6_filter8.md) and of Filter14 (43_filter14.md). Each reads the samples as gathered (R115, R135). -/

namespace Sys2Proof.Machine

/-- The four outputs of Filter4 (R100). -/
structure Filter4Out where
  p1 : Int
  p0 : Int
  q0 : Int
  q1 : Int
deriving DecidableEq, Repr

/-- `base_filter` (R102). -/
def baseFilter (d : Depth) (hev : Bool) (ps1 qs1 : Int) : Int := if hev then clampBd d (ps1 - qs1) else 0

/-- `adj` (R103). -/
def adjust (d : Depth) (mask : Bool) (base ps0 qs0 : Int) : Int :=
  if mask then clampBd d (base + 3 * (qs0 - ps0)) else 0

/-- `filter1` (R104). -/
def filter1 (d : Depth) (adj : Int) : Int := asr (clampBd d (adj + 4)) 3

/-- `filter2` (R104). -/
def filter2 (d : Depth) (adj : Int) : Int := asr (clampBd d (adj + 3)) 3

/-- `side_filter` (R106). -/
def sideFilter (d : Depth) (hev : Bool) (f1 : Int) : Int := if hev then 0 else asr (clampBd d (f1 + 1)) 1

/-- `adj` of a line from its four inner samples (R101 to R103). -/
def lineAdjust (d : Depth) (mask hev : Bool) (p1 p0 q0 q1 : Int) : Int :=
  adjust d mask (baseFilter d hev (p1 - d.bias) (q1 - d.bias)) (p0 - d.bias) (q0 - d.bias)

/-- A centred sample moved by `δ`, clamped and re-biased (R105, R107). -/
def moveSample (d : Depth) (x δ : Int) : Int := clampBd d (x - d.bias + δ) + d.bias

/-- Filter4 (R101 to R107). -/
def filter4 (d : Depth) (mask hev : Bool) (p1 p0 q0 q1 : Int) : Filter4Out :=
  let adj := lineAdjust d mask hev p1 p0 q0 q1
  let f1 := filter1 d adj
  let f2 := filter2 d adj
  let side := sideFilter d hev f1
  { p1 := moveSample d p1 side, p0 := moveSample d p0 f2, q0 := moveSample d q0 (-f1), q1 := moveSample d q1 (-side) }

/-- The outputs of an averaging stage, `aP` and `aQ`, indexed outward from the edge (R115). -/
structure Averages where
  p : List Int
  q : List Int
deriving DecidableEq, Repr

/-- Filter6's 5-tap averages (R117). -/
def avg6 (p q : Side) : Averages :=
  let p0 := p.px 0; let p1 := p.px 1; let p2 := p.px 2
  let q0 := q.px 0; let q1 := q.px 1; let q2 := q.px 2
  { p :=
      [rnd (p2 + 2 * p1 + 2 * p0 + 2 * q0 + q1) 3,
        rnd (3 * p2 + 2 * p1 + 2 * p0 + q0) 3],
    q :=
      [rnd (p1 + 2 * p0 + 2 * q0 + 2 * q1 + q2) 3,
        rnd (p0 + 2 * q0 + 2 * q1 + 3 * q2) 3] }

/-- Filter8's 7-tap averages (R120); also the middle tier of Filter14, on its inner eight samples (43_filter14.md
R139). -/
def avg8 (p q : Side) : Averages :=
  let p0 := p.px 0; let p1 := p.px 1; let p2 := p.px 2; let p3 := p.px 3
  let q0 := q.px 0; let q1 := q.px 1; let q2 := q.px 2; let q3 := q.px 3
  { p :=
      [rnd (p3 + p2 + p1 + 2 * p0 + q0 + q1 + q2) 3,
        rnd (2 * p3 + p2 + 2 * p1 + p0 + q0 + q1) 3,
        rnd (3 * p3 + 2 * p2 + p1 + p0 + q0) 3],
    q :=
      [rnd (p2 + p1 + p0 + 2 * q0 + q1 + q2 + q3) 3,
        rnd (p1 + p0 + q0 + 2 * q1 + q2 + 2 * q3) 3,
        rnd (p0 + q0 + q1 + 2 * q2 + 3 * q3) 3] }

/-- Filter14's 13-tap averages (R136). -/
def avg14 (p q : Side) : Averages :=
  let p0 := p.px 0; let p1 := p.px 1; let p2 := p.px 2; let p3 := p.px 3
  let p4 := p.px 4; let p5 := p.px 5; let p6 := p.px 6
  let q0 := q.px 0; let q1 := q.px 1; let q2 := q.px 2; let q3 := q.px 3
  let q4 := q.px 4; let q5 := q.px 5; let q6 := q.px 6
  { p :=
      [rnd (p6 + p5 + p4 + p3 + p2 + 2 * p1 + 2 * p0 + 2 * q0 + q1 + q2 + q3 + q4 + q5) 4,
        rnd (2 * p6 + p5 + p4 + p3 + 2 * p2 + 2 * p1 + 2 * p0 + q0 + q1 + q2 + q3 + q4) 4,
        rnd (3 * p6 + p5 + p4 + 2 * p3 + 2 * p2 + 2 * p1 + p0 + q0 + q1 + q2 + q3) 4,
        rnd (4 * p6 + p5 + 2 * p4 + 2 * p3 + 2 * p2 + p1 + p0 + q0 + q1 + q2) 4,
        rnd (5 * p6 + 2 * p5 + 2 * p4 + 2 * p3 + p2 + p1 + p0 + q0 + q1) 4,
        rnd (7 * p6 + 2 * p5 + 2 * p4 + p3 + p2 + p1 + p0 + q0) 4],
    q :=
      [rnd (p5 + p4 + p3 + p2 + p1 + 2 * p0 + 2 * q0 + 2 * q1 + q2 + q3 + q4 + q5 + q6) 4,
        rnd (p4 + p3 + p2 + p1 + p0 + 2 * q0 + 2 * q1 + 2 * q2 + q3 + q4 + q5 + 2 * q6) 4,
        rnd (p3 + p2 + p1 + p0 + q0 + 2 * q1 + 2 * q2 + 2 * q3 + q4 + q5 + 3 * q6) 4,
        rnd (p2 + p1 + p0 + q0 + q1 + 2 * q2 + 2 * q3 + 2 * q4 + q5 + 4 * q6) 4,
        rnd (p1 + p0 + q0 + q1 + q2 + 2 * q3 + 2 * q4 + 2 * q5 + 5 * q6) 4,
        rnd (p0 + q0 + q1 + q2 + q3 + 2 * q4 + 2 * q5 + 7 * q6) 4] }

/-- The averaging kernel of a width (R116); width 4 has no averaging stage. -/
def kernel (w : Width) : List Int :=
  match w with
  | .w4 => []
  | .w6 => [1, 2, 2, 2, 1]
  | .w8 => [1, 1, 1, 2, 1, 1, 1]
  | .w14 => [1, 1, 1, 1, 1, 2, 2, 2, 1, 1, 1, 1, 1]

/-- The shift `n` of a width's kernel (R116): its weights sum to `2^n`. -/
def kernelShift (w : Width) : Nat :=
  match w with
  | .w4 => 0
  | .w6 => 3
  | .w8 => 3
  | .w14 => 4

/-- `x[i]` of the sequence R116 lays a line out as, for `0 ≤ i < 2K` counted from the outermost `p` sample. -/
def lineAt (K : Nat) (p q : Side) (i : Nat) : Int := if i < K then p.px (K - 1 - i) else q.px (i - K)

/-- R116's average centred on position `i` (counted from the outermost `p` sample): a tap beyond the outermost sample
takes the outermost sample. -/
def kernelAvg (w : Width) (p q : Side) (i : Nat) : Int :=
  let h := (kernel w).length / 2
  let tap := fun j : Nat => lineAt w.K p q (min (i + j - h) (2 * w.K - 1))
  rnd (((List.range (kernel w).length).map fun j => (kernel w).getD j 0 * tap j).sum) (kernelShift w)

end Sys2Proof.Machine
end

