-- ==== Sys2Proof/Machine/Blender.lean ====
section
/-! DEFINITION. The Pixel Blender (44_blender.md): which candidate becomes the result at each position, and the per-line
function that joins the units (46_commands.md R191). -/

namespace Sys2Proof.Machine

/-- The result at index `k` of one side (R156 to R159), from the original sample, the Filter4 result, the average of the
middle tier (`a6` or `a8`) and the 13-tap average. -/
def blendAt (w : Width) (m : Masks) (k : Nat) (orig f4 mid wide : Int) : Int :=
  match w with
  | .w4 => f4
  | .w6 => if m.flat then mid else f4
  | .w8 => if m.flat then mid else if k < 2 then f4 else orig
  | .w14 =>
    if m.flat2 then wide
    else if k < 3 then
      if m.flat then mid else if k < 2 then f4 else orig
    else orig

/-- The middle tier of a width (R155): `a6` at width 6, `a8` at widths 8 and 14, none at width 4. -/
def midTier (w : Width) (p q : Side) : Averages :=
  match w with
  | .w4 => { p := [], q := [] }
  | .w6 => avg6 p q
  | .w8 => avg8 p q
  | .w14 => avg8 p q

/-- The 13-tap tier, width 14 only (R155). -/
def wideTier (w : Width) (p q : Side) : Averages :=
  match w with
  | .w4 => { p := [], q := [] }
  | .w6 => { p := [], q := [] }
  | .w8 => { p := [], q := [] }
  | .w14 => avg14 p q

/-- Filter4 of a line (R100): its inner four samples, `mask` and `hev`. -/
def lineFilter4 (d : Depth) (m : Masks) (p q : Side) : Filter4Out :=
  filter4 d m.mask m.hev (p.px 1) (p.px 0) (q.px 0) (q.px 1)

/-- `oP[k]` (R156 to R159). -/
def blendP (w : Width) (d : Depth) (m : Masks) (p q : Side) (k : Nat) : Int :=
  let f := lineFilter4 d m p q
  blendAt w m k (p.px k) (if k = 0 then f.p0 else f.p1) ((midTier w p q).p.getD k 0) ((wideTier w p q).p.getD k 0)

/-- `oQ[k]` (R156 to R159). -/
def blendQ (w : Width) (d : Depth) (m : Masks) (p q : Side) (k : Nat) : Int :=
  let f := lineFilter4 d m p q
  blendAt w m k (q.px k) (if k = 0 then f.q0 else f.q1) ((midTier w p q).q.getD k 0) ((wideTier w p q).q.getD k 0)

/-- `filter_line` (46_commands.md R191), on the registers of one line: the masks and the results `oP[0..M-1]`,
`oQ[0..M-1]`; `P` and `Q` are never modified. The results are never negative (R163). -/
def filterLine (includeP1Q1 : Bool) (w : Width) (d : Depth) (t : Thresholds) (r : LineRegs) : LineRegs :=
  let m := maskEngine includeP1Q1 w t r.p r.q
  { r with
    masks := m,
    oP := (List.range w.M).map fun k => (blendP w d m r.p r.q k).toNat,
    oQ := (List.range w.M).map fun k => (blendQ w d m r.p r.q k).toNat }

end Sys2Proof.Machine
end

