-- ==== Sys2Proof/Machine/Ops.lean ====
section
/-! DEFINITION. The shared operations over memory and registers: single-sample access (20_memory.md R41), the byte view
(R42), the contract checks (46_commands.md R190), gather, compute and scatter (45_orientation_adapter.md R179,
46_commands.md R190), and the execution of a command. The block takes no exception and returns from none
(60_exceptions.md R220, R224, R225): there is no such operation to share. -/

namespace Sys2Proof.Machine

/-- What a sample address that is not listed reads as. The spec gives memory no reset contents (10_state.md R30). DESIGN
CHOICE, unsafe (assumption 3): zero. -/
def unlistedSample : Sample := 0

/-- `MemRead(a, 1)` (20_memory.md R41). -/
def Memory.read : Memory → Nat → Sample
  | [], _ => unlistedSample
  | (b, v) :: m, a => if a = b then v else Memory.read m a

/-- Lists `v` at `a`, keeping addresses in rising order. -/
def Memory.insert : Memory → Nat → Sample → Memory
  | [], a, v => [(a, v)]
  | (b, w) :: m, a, v => if a < b then (a, v) :: (b, w) :: m else (b, w) :: Memory.insert m a v

/-- Unlists `a`. -/
def Memory.erase (m : Memory) (a : Nat) : Memory := m.filter fun c => decide (c.1 ≠ a)

/-- `MemWrite(a, 1, v)` (20_memory.md R41). -/
def Memory.write (m : Memory) (a : Nat) (v : Sample) : Memory :=
  if v = unlistedSample then m.erase a else (m.erase a).insert a v

/-- The canonical form: addresses strictly rising, and no entry equal to what an unlisted address reads as. -/
abbrev Memory.wf (m : Memory) : Prop := m.Pairwise (fun c d => c.1 < d.1) ∧ ∀ c ∈ m, c.2 ≠ unlistedSample

/-- Writes a list of samples, the first first. -/
def Memory.writeAll (m : Memory) (ws : List (Nat × Sample)) : Memory := ws.foldl (fun m w => m.write w.1 w.2) m

/-- A sample as the integer `0 ≤ v < 2^16` it holds (10_state.md R21). -/
def Memory.sample (m : Memory) (a : Int) : Nat := (m.read a.toNat).toNat

/-- The bytes one sample takes on a byte-addressed platform (20_memory.md R42). -/
def bytesPerSample (d : Depth) : Nat :=
  match d with
  | .d8 => 1
  | .d10 => 2
  | .d12 => 2

/-- The byte at `byte_base + i` on a byte-addressed platform, for a picture of depth `d` (20_memory.md R42): one byte a
sample at 8 bits, two bytes little-endian at 10 and 12. -/
def Memory.byteAt (m : Memory) (d : Depth) (i : Nat) : BitVec 8 :=
  let s := m.read (i / bytesPerSample d)
  if i % bytesPerSample d = 0 then s.extractLsb' 0 8 else s.extractLsb' 8 8

/-- Every footprint address lies in the memory (20_memory.md R46). -/
def inRange (cfg : Config) (c : Cmd) : Bool :=
  (c.footprint cfg.linesPerSegment).all fun a => decide (0 ≤ a) && decide (a < cfg.memSamples)

/-- No address occurs twice. -/
def allDistinct : List Int → Bool
  | [] => true
  | a :: as => !as.contains a && allDistinct as

/-- No two footprint positions share an address (45_orientation_adapter.md R181). -/
def aliasFree (cfg : Config) (c : Cmd) : Bool := allDistinct (c.footprint cfg.linesPerSegment)

/-- Every footprint sample is at most `pmax(bd)` (20_memory.md R47). -/
def samplesInRange (cfg : Config) (m : Memory) (c : Cmd) : Bool :=
  (c.footprint cfg.linesPerSegment).all fun a => decide (m.sample a ≤ c.depth.pmax)

/-- The contract checks of a command, in the order of R190 and 60_exceptions.md R222: the first violation. -/
def checkCommand (cfg : Config) (m : Memory) (c : Cmd) : Option Refusal :=
  if inRange cfg c = false then some .footprintOutOfRange
  else if aliasFree cfg c = false then some .footprintAlias
  else if samplesInRange cfg m c = false then some .sampleOutOfRange
  else none

/-- The engine starts: the thresholds of both segments, once per command (10_state.md R23). -/
def Engine.start (e : Engine) (c : Cmd) : Engine :=
  { e with thr0 := scaleThresholds c.depth c.par0, thr1 := scaleThresholds c.depth c.par1 }

/-- The registers of a line loaded from its scratch row (laid out as the model chooses, assumption 21); its masks and
results are not computed yet (10_state.md R22). -/
def loadLine (w : Width) (row : Side) : LineRegs :=
  { p := (row.take w.K).reverse, q := row.drop w.K,
    masks := { mask := false, hev := false, flat := false, flat2 := false }, oP := [], oQ := [] }

/-- Gather (45_orientation_adapter.md R170, R179): every footprint sample into the scratch, and from there into the line
registers. DESIGN CHOICE, safe for the memory and unsafe for a claim about the scratch (assumption 21): the scratch is
filled for a horizontal edge too, and holds one row per pixel line from its outermost `p` sample to its outermost `q`
sample; 10_state.md R27 speaks of a vertical edge only, and 45_orientation_adapter.md R177 gives the buffer's shape no
meaning. -/
def Engine.gather (e : Engine) (cfg : Config) (m : Memory) (c : Cmd) : Engine :=
  let rows := (List.range (c.nLines cfg.linesPerSegment)).map fun n => (c.lineAddrs n).map m.sample
  { e with scratch := rows, lines := rows.map (loadLine c.width) }

/-- Compute: every line with the thresholds of its segment, `e = n div L` (46_commands.md R190, R191). -/
def Engine.compute (e : Engine) (cfg : Config) (c : Cmd) : Engine :=
  { e with
    lines := e.lines.mapIdx fun n r =>
      filterLine cfg.flatIncludesP1Q1 c.width c.depth (if n / cfg.linesPerSegment = 0 then e.thr0 else e.thr1) r }

/-- The writes of line `n`: each result to the address its original was gathered from (45_orientation_adapter.md
R170). -/
def lineStores (c : Cmd) (n : Nat) (r : LineRegs) : List (Nat × Sample) :=
  (List.range c.width.M).map (fun k => ((c.addrP n k).toNat, BitVec.ofNat 16 (r.oP.getD k 0)))
    ++ (List.range c.width.M).map (fun k => ((c.addrQ n k).toNat, BitVec.ofNat 16 (r.oQ.getD k 0)))

/-- Every write of a command, line by line. -/
def Engine.stores (e : Engine) (c : Cmd) : List (Nat × Sample) :=
  (e.lines.mapIdx fun n r => lineStores c n r).flatten

/-- The engine completes: `st` becomes `IDLE` and `done` pulses (30_encoding.md R61). The working registers keep what
the command left in them; nothing reads them before they are loaded again (10_state.md R29, R30; assumption 4). -/
def Engine.finish (e : Engine) : Engine := { e with st := .idle, done := true }

/-- The engine when it has gathered and computed a command, before its first write. -/
def Engine.work (e : Engine) (cfg : Config) (m : Memory) (c : Cmd) : Engine := ((e.start c).gather cfg m c).compute cfg c

/-- Execution of a command by the engine whose turn it is (R190): checks, gather, compute, scatter, all of them one
step (70_reset_and_hazards.md R256). -/
def runCommand (c : Cmd) (s : State) : Host.Outcome State Fault Refusal :=
  match s.engines[s.cur]? with
  | none => .fault .noSuchEngine
  | some e =>
    match checkCommand s.cfg s.mem c with
    | some r => .refused r
    | none =>
      let e' := e.work s.cfg s.mem c
      .next { s with mem := s.mem.writeAll (e'.stores c), engines := s.engines.set s.cur e'.finish }

end Sys2Proof.Machine
end

