-- ==== Sys2Proof/Machine/HorizontalDual.lean ====
section
/-! DEFINITION. The dual commands, horizontal edge (46_commands.md R200 to R203): each the
common execution rule R190 at its own width. -/

namespace Sys2Proof.Machine

/-- `LPF.H4D` (R200): the 4-wide filter across a horizontal edge, two adjacent segments. -/
def execLpfH4D (d : Depth) (base : Nat) (stride : Int) (p q : Params) (s : State) :
    Host.Outcome State Fault Refusal :=
  runCommand (dualCmd .w4 .horizontal d base stride p q) s

/-- `LPF.H6D` (R201): the 6-wide filter across a horizontal edge, two adjacent segments. -/
def execLpfH6D (d : Depth) (base : Nat) (stride : Int) (p q : Params) (s : State) :
    Host.Outcome State Fault Refusal :=
  runCommand (dualCmd .w6 .horizontal d base stride p q) s

/-- `LPF.H8D` (R202): the 8-wide filter across a horizontal edge, two adjacent segments. -/
def execLpfH8D (d : Depth) (base : Nat) (stride : Int) (p q : Params) (s : State) :
    Host.Outcome State Fault Refusal :=
  runCommand (dualCmd .w8 .horizontal d base stride p q) s

/-- `LPF.H14D` (R203): the 14-wide filter across a horizontal edge, two adjacent segments. -/
def execLpfH14D (d : Depth) (base : Nat) (stride : Int) (p q : Params) (s : State) :
    Host.Outcome State Fault Refusal :=
  runCommand (dualCmd .w14 .horizontal d base stride p q) s

end Sys2Proof.Machine
end

