-- ==== Sys2Proof/Machine/HorizontalSingle.lean ====
section
/-! DEFINITION. The single commands, horizontal edge (46_commands.md R192 to R195): each the
common execution rule R190 at its own width. -/

namespace Sys2Proof.Machine

/-- `LPF.H4` (R192): the 4-wide filter across a horizontal edge, one segment. -/
def execLpfH4 (d : Depth) (base : Nat) (stride : Int) (p : Params) (s : State) : Host.Outcome State Fault Refusal :=
  runCommand (singleCmd .w4 .horizontal d base stride p) s

/-- `LPF.H6` (R193): the 6-wide filter across a horizontal edge, one segment. -/
def execLpfH6 (d : Depth) (base : Nat) (stride : Int) (p : Params) (s : State) : Host.Outcome State Fault Refusal :=
  runCommand (singleCmd .w6 .horizontal d base stride p) s

/-- `LPF.H8` (R194): the 8-wide filter across a horizontal edge, one segment. -/
def execLpfH8 (d : Depth) (base : Nat) (stride : Int) (p : Params) (s : State) : Host.Outcome State Fault Refusal :=
  runCommand (singleCmd .w8 .horizontal d base stride p) s

/-- `LPF.H14` (R195): the 14-wide filter across a horizontal edge, one segment. -/
def execLpfH14 (d : Depth) (base : Nat) (stride : Int) (p : Params) (s : State) : Host.Outcome State Fault Refusal :=
  runCommand (singleCmd .w14 .horizontal d base stride p) s

end Sys2Proof.Machine
end

