-- ==== Sys2Proof/Machine/VerticalDual.lean ====
section
/-! DEFINITION. The dual commands, vertical edge (46_commands.md R204 to R207): each the
common execution rule R190 at its own width. -/

namespace Sys2Proof.Machine

/-- `LPF.V4D` (R204): the 4-wide filter across a vertical edge, two adjacent segments. -/
def execLpfV4D (d : Depth) (base : Nat) (stride : Int) (p q : Params) (s : State) :
    Host.Outcome State Fault Refusal :=
  runCommand (dualCmd .w4 .vertical d base stride p q) s

/-- `LPF.V6D` (R205): the 6-wide filter across a vertical edge, two adjacent segments. -/
def execLpfV6D (d : Depth) (base : Nat) (stride : Int) (p q : Params) (s : State) :
    Host.Outcome State Fault Refusal :=
  runCommand (dualCmd .w6 .vertical d base stride p q) s

/-- `LPF.V8D` (R206): the 8-wide filter across a vertical edge, two adjacent segments. -/
def execLpfV8D (d : Depth) (base : Nat) (stride : Int) (p q : Params) (s : State) :
    Host.Outcome State Fault Refusal :=
  runCommand (dualCmd .w8 .vertical d base stride p q) s

/-- `LPF.V14D` (R207): the 14-wide filter across a vertical edge, two adjacent segments. -/
def execLpfV14D (d : Depth) (base : Nat) (stride : Int) (p q : Params) (s : State) :
    Host.Outcome State Fault Refusal :=
  runCommand (dualCmd .w14 .vertical d base stride p q) s

end Sys2Proof.Machine
end

