-- ==== Sys2Proof/Machine/VerticalSingle.lean ====
section
/-! DEFINITION. The single commands, vertical edge (46_commands.md R196 to R199): each the
common execution rule R190 at its own width. -/

namespace Sys2Proof.Machine

/-- `LPF.V4` (R196): the 4-wide filter across a vertical edge, one segment. -/
def execLpfV4 (d : Depth) (base : Nat) (stride : Int) (p : Params) (s : State) : Host.Outcome State Fault Refusal :=
  runCommand (singleCmd .w4 .vertical d base stride p) s

/-- `LPF.V6` (R197): the 6-wide filter across a vertical edge, one segment. -/
def execLpfV6 (d : Depth) (base : Nat) (stride : Int) (p : Params) (s : State) : Host.Outcome State Fault Refusal :=
  runCommand (singleCmd .w6 .vertical d base stride p) s

/-- `LPF.V8` (R198): the 8-wide filter across a vertical edge, one segment. -/
def execLpfV8 (d : Depth) (base : Nat) (stride : Int) (p : Params) (s : State) : Host.Outcome State Fault Refusal :=
  runCommand (singleCmd .w8 .vertical d base stride p) s

/-- `LPF.V14` (R199): the 14-wide filter across a vertical edge, one segment. -/
def execLpfV14 (d : Depth) (base : Nat) (stride : Int) (p : Params) (s : State) : Host.Outcome State Fault Refusal :=
  runCommand (singleCmd .w14 .vertical d base stride p) s

end Sys2Proof.Machine
end

