-- ==== Sys2Proof/Machine/Dispatch.lean ====
section
/-! DEFINITION. The meaning of every command, one arm per constructor. -/

namespace Sys2Proof.Machine

def exec (i : Instr) (s : State) : Host.Outcome State Fault Refusal :=
  match i with
  | .lpfH4 d base stride p => Sys2Proof.Machine.execLpfH4 d base stride p s
  | .lpfH6 d base stride p => Sys2Proof.Machine.execLpfH6 d base stride p s
  | .lpfH8 d base stride p => Sys2Proof.Machine.execLpfH8 d base stride p s
  | .lpfH14 d base stride p => Sys2Proof.Machine.execLpfH14 d base stride p s
  | .lpfV4 d base stride p => Sys2Proof.Machine.execLpfV4 d base stride p s
  | .lpfV6 d base stride p => Sys2Proof.Machine.execLpfV6 d base stride p s
  | .lpfV8 d base stride p => Sys2Proof.Machine.execLpfV8 d base stride p s
  | .lpfV14 d base stride p => Sys2Proof.Machine.execLpfV14 d base stride p s
  | .lpfH4D d base stride p q => Sys2Proof.Machine.execLpfH4D d base stride p q s
  | .lpfH6D d base stride p q => Sys2Proof.Machine.execLpfH6D d base stride p q s
  | .lpfH8D d base stride p q => Sys2Proof.Machine.execLpfH8D d base stride p q s
  | .lpfH14D d base stride p q => Sys2Proof.Machine.execLpfH14D d base stride p q s
  | .lpfV4D d base stride p q => Sys2Proof.Machine.execLpfV4D d base stride p q s
  | .lpfV6D d base stride p q => Sys2Proof.Machine.execLpfV6D d base stride p q s
  | .lpfV8D d base stride p q => Sys2Proof.Machine.execLpfV8D d base stride p q s
  | .lpfV14D d base stride p q => Sys2Proof.Machine.execLpfV14D d base stride p q s

end Sys2Proof.Machine
end

