-- ==== Sys2Proof/Machine/Events.lean ====
section
/-! DEFINITION. What happens between commands: acceptance and completion on the command port (30_encoding.md R61), the
host's accesses (60_exceptions.md R229), and reset (70_reset_and_hazards.md R240 to R242). -/

namespace Sys2Proof.Machine

/-- The refusal reason of a reserved descriptor (60_exceptions.md R223). -/
def reservedRefusal (r : Reserved) : Refusal :=
  match r with
  | .bits => .reservedBits
  | .depth => .reservedDepth
  | .params => .reservedParams

/-- `cmd_ready`: asserted exactly when `st = IDLE` (R61). -/
def Engine.cmdReady (e : Engine) : Bool := decide (e.st = .idle)

/-- The command an engine is busy with: what its latch decodes to (10_state.md R26). -/
def Engine.command (e : Engine) : Option Cmd :=
  match e.st with
  | .idle => none
  | .busy =>
    match decode e.latch with
    | .ok i => some i.cmd
    | .error _ => none

/-- The addresses no other agent may touch while the engine is `BUSY` (20_memory.md R50): the footprint of its
command. -/
def Engine.held (e : Engine) (L : Nat) : List Int :=
  match e.command with
  | some c => c.footprint L
  | none => []

/-- Whether some engine holds address `a`. -/
def heldBySome (s : State) (a : Int) : Bool :=
  s.engines.any fun e => (e.held s.cfg.linesPerSegment).contains a

/-- The host presents descriptor `d` to engine `e` (R61). The refusal reasons are reported in the order of
60_exceptions.md R222; otherwise the command is accepted: `st` becomes `BUSY` and the descriptor is latched. -/
def issue (e : Nat) (d : Descriptor) (s : State) : Host.Outcome State Fault Refusal :=
  match s.engines[e]? with
  | none => .fault .noSuchEngine
  | some eng =>
    if eng.cmdReady = false then .refused .busyIssue
    else
      match decode d with
      | .error r => .refused (reservedRefusal r)
      | .ok i =>
        match checkCommand s.cfg s.mem i.cmd with
        | some r => .refused r
        | none =>
          if (i.cmd.footprint s.cfg.linesPerSegment).any (heldBySome s) then .refused .footprintOverlap
          else .next { s with engines := s.engines.set e { eng with st := .busy, latch := d } }

/-- Engine `e` moves: a `BUSY` engine performs the command in its latch, an `IDLE` one does nothing (20_memory.md R51: it
performs no access until it accepts another command). -/
def engineTurn (e : Nat) (s : State) : Host.Outcome State Fault Refusal :=
  match s.engines[e]? with
  | none => .fault .noSuchEngine
  | some eng =>
    match eng.st with
    | .idle => .next s
    | .busy =>
      match decode eng.latch with
      | .error r => .refused (reservedRefusal r)
      | .ok i => exec i { s with cur := e }

/-- The contract of a host access at `a` (60_exceptions.md R229, 70_reset_and_hazards.md R254): a sample of the memory,
in the footprint of no command in progress. -/
def hostAccess (a : Nat) (s : State) (s' : State) : Host.Outcome State Fault Refusal :=
  if s.cfg.memSamples ≤ a then .fault .noSuchAddress
  else if heldBySome s a then .refused .footprintOverlap
  else .next s'

/-- The host reads `a`: it gets `s.mem.read a`, and a read has no side effect (20_memory.md R41, R44). -/
def hostRead (a : Nat) (s : State) : Host.Outcome State Fault Refusal := hostAccess a s s

/-- The host writes `v` at `a`. -/
def hostWrite (a : Nat) (v : Sample) (s : State) : Host.Outcome State Fault Refusal :=
  hostAccess a s { s with mem := s.mem.write a v }

/-- The memory after a reset that interrupts engine `e`'s command (R242): each address of the write set holds the value
it held before or the value the completed command would have written, as the free value says, independently per
address. -/
def abandon (cfg : Config) (ctr : Nat) (m : Memory) (e : Engine) : Memory :=
  match e.command with
  | none => m
  | some c =>
    match checkCommand cfg m c with
    | some _ => m
    | none => m.writeAll (((e.work cfg m c).stores c).filter fun w => Config.resetLanded ctr w.1)

/-- Reset (R240): every engine `IDLE` with `done` deasserted, any command in progress abandoned. -/
def resetEvent (s : State) : State :=
  { s with
    mem := s.engines.foldl (abandon s.cfg s.freeCtr) s.mem,
    engines := s.engines.map fun _ => Engine.reset,
    freeCtr := s.freeCtr + 1 }

/-- One event. -/
def stepInput (i : Input) (s : State) : Host.Outcome State Fault Refusal :=
  match i with
  | .issue e d => issue e d s
  | .turn e => engineTurn e s
  | .hostRead a => hostRead a s
  | .hostWrite a v => hostWrite a v s
  | .reset => .next (resetEvent s)

/-- `done` is a pulse (R61): it is deasserted again when the next event begins. -/
def clearDone (s : State) : State := { s with engines := s.engines.map fun e => { e with done := false } }

/-- The first engine that is `BUSY`. -/
def firstBusy : List Engine → Option Nat
  | [] => none
  | e :: es =>
    match e.st with
    | .busy => some 0
    | .idle => (firstBusy es).map (· + 1)

/-- With no event left, every accepted command still completes (R256: its latency is finite), the lowest-numbered engine
first (the order is not observable, 60_exceptions.md R228; assumption 8); when every engine is `IDLE` the block waits for
a command (70_reset_and_hazards.md R240). -/
def idleStep (s : State) : Host.Outcome State Fault Refusal :=
  match firstBusy s.engines with
  | none => .next s
  | some e => engineTurn e s

/-- The next event, or the machine left to itself. -/
def nextEvent (s : State) : Host.Outcome State Fault Refusal :=
  match s.inputs with
  | [] => idleStep (clearDone s)
  | i :: rest => stepInput i (clearDone { s with inputs := rest })

/-- The table word placed where the next step fetches: accepted by engine 0, whose turn it is. -/
def placeWord (s : State) (nbits w : Nat) : State :=
  { s with
    engines := s.engines.modify 0 fun e => { e with st := .busy, latch := BitVec.ofNat 128 (w % 2 ^ nbits) },
    inputs := .turn 0 :: s.inputs }

end Sys2Proof.Machine
end

