-- ==== Sys2Proof/Machine/Step.lean ====
section
/-! DEFINITION. One step of the machine, and the host's way to place a command. -/

namespace Sys2Proof.Machine

/-- One step: the next event of the outside world, or the completion of an accepted command. -/
def step (s : State) : Host.Outcome State Fault Refusal := nextEvent s

/-- The state whose very next step runs the command of table word `w` (assumption 7). -/
def State.withFetchWord (s : State) (nbits w : Nat) : State := placeWord s nbits w

end Sys2Proof.Machine
end

