-- ==== Sys2Proof/Safety.lean ====
section
/-! DEFINITION. The terms claims use: when a command is inside the caller contract (46_commands.md R190), and what every
state a run reaches satisfies. -/

namespace Sys2Proof.Machine

/-- The caller contract of one command (60_exceptions.md R223, R229; 70_reset_and_hazards.md R243): the footprint inside
the memory (20_memory.md R46), alias-free (45_orientation_adapter.md R181), and holding in-range samples (20_memory.md
R47). -/
structure InContract (cfg : Config) (m : Memory) (c : Cmd) : Prop where
  inside : ∀ a ∈ c.footprint cfg.linesPerSegment, 0 ≤ a ∧ a < cfg.memSamples
  distinct : (c.footprint cfg.linesPerSegment).Nodup
  samples : ∀ a ∈ c.footprint cfg.linesPerSegment, m.sample a ≤ c.depth.pmax

/-- Command `i` can run in `s`: the engine whose turn it is exists, and the command is inside the contract. -/
def Ready (s : State) (i : Instr) : Prop := s.cur < s.engines.length ∧ InContract s.cfg s.mem i.cmd

/-- What every reachable state satisfies. -/
structure Consistent (s : State) : Prop where
  /-- The parameters are within 00_scope.md R5. -/
  config : s.cfg.wf
  /-- The memory is in canonical form. -/
  memory : s.mem.wf
  /-- Only samples of the memory are listed (20_memory.md R40). -/
  listed : ∀ c ∈ s.mem, c.1 < s.cfg.memSamples
  /-- Every command in progress is a legal one inside the contract. -/
  accepted : ∀ e ∈ s.engines, e.st = .busy → ∃ c, e.command = some c ∧ InContract s.cfg s.mem c
  /-- The footprints of commands in progress are disjoint (20_memory.md R50). -/
  apart : s.engines.Pairwise fun e f => ∀ a ∈ e.held s.cfg.linesPerSegment, a ∉ f.held s.cfg.linesPerSegment

/-- `P_n[0..K-1]` of line `n` as gathered from memory `m` (45_orientation_adapter.md R170). -/
def gatheredP (m : Memory) (c : Cmd) (n : Nat) : Side := (List.range c.width.K).map fun k => m.sample (c.addrP n k)

/-- `Q_n[0..K-1]` of line `n` as gathered from memory `m`. -/
def gatheredQ (m : Memory) (c : Cmd) (n : Nat) : Side := (List.range c.width.K).map fun k => m.sample (c.addrQ n k)

/-- The scaled thresholds of the segment line `n` belongs to (45_orientation_adapter.md R173). -/
def lineThresholds (cfg : Config) (c : Cmd) (n : Nat) : Thresholds :=
  scaleThresholds c.depth (segmentParams c cfg.linesPerSegment n)

/-- The Mask Engine's Booleans of line `n` of a command on memory `m`. -/
def lineMasks (cfg : Config) (m : Memory) (c : Cmd) (n : Nat) : Masks :=
  maskEngine cfg.flatIncludesP1Q1 c.width (lineThresholds cfg c n) (gatheredP m c n) (gatheredQ m c n)

/-- The result `oP[k]` of line `n` of a command on memory `m`: the Blender's value (46_commands.md R191). -/
def resultP (cfg : Config) (m : Memory) (c : Cmd) (n k : Nat) : Int :=
  blendP c.width c.depth (lineMasks cfg m c n) (gatheredP m c n) (gatheredQ m c n) k

/-- The result `oQ[k]` of line `n` of a command on memory `m`. -/
def resultQ (cfg : Config) (m : Memory) (c : Cmd) (n k : Nat) : Int :=
  blendQ c.width c.depth (lineMasks cfg m c n) (gatheredP m c n) (gatheredQ m c n) k

/-- The outcome is a next state that satisfies `Q`. -/
def Completes (o : Host.Outcome State Fault Refusal) (Q : State → Prop) : Prop := ∃ t, o = .next t ∧ Q t

end Sys2Proof.Machine
end

