-- ==== Sys2Proof/Certificates/Slice0/Obligations.lean ====
section
/-! DEFINITION. The statements for the provers. Each docstring names the rule of the spec it formalises. -/

open Sys2Proof Sys2Proof.Machine

/-! ### Encoding -/

/-- Descriptors written out in 30_encoding.md R74, 46_commands.md R192, R199, R201 and 95_test_vectors.md NS decode to
the commands they stand for, operands included. -/
def Obligations.SpecDescriptorsDecode : Prop :=
  decode (ofWords 0x0814001E 0x03091802 0x00000040 0x00000200) =
      .ok (.lpfV8D .d10 0x200 64 { blimit := 20, limit := 8, thresh := 2 } { blimit := 24, limit := 9, thresh := 3 }) ∧
  decode (ofWords 0x14280000 0x00000003 0x00000010 0x00000074) =
      .ok (.lpfH4 .d8 116 16 { blimit := 40, limit := 20, thresh := 3 }) ∧
  decode (ofWords 0x14280007 0x00000003 0x00000010 0x00000008) =
      .ok (.lpfV14 .d8 8 16 { blimit := 40, limit := 20, thresh := 3 }) ∧
  decode (ofWords 0x14280009 0x03141803 0x00000010 0x00000074) =
      .ok (.lpfH6D .d8 116 16 { blimit := 40, limit := 20, thresh := 3 } { blimit := 24, limit := 20, thresh := 3 }) ∧
  decode (ofWords 0x14280000 0x00000003 0xFFFFFFFC 0x00000004) =
      .ok (.lpfH4 .d8 4 (-4) { blimit := 40, limit := 20, thresh := 3 })

/-- Decoding gives a well-formed command back from its encoding, every operand at every value its field admits (R73).
-/
def Obligations.DecodeOfEncodeIsTheCommand : Prop := ∀ i : Instr, i.wf = true → decode (encode i) = .ok i

/-- Encoding gives a descriptor back from the command it decodes to, and that command is well formed: each command has
exactly one encoding (R71, R73). -/
def Obligations.EncodeOfDecodeIsTheDescriptor : Prop :=
  ∀ (D : Descriptor) (i : Instr), decode D = .ok i → i.wf = true ∧ encode i = D

/-- R73 in terms of the descriptor's bits: the three reserved checks in their order, and where none applies a command
whose width, orientation, arity, depth, triples, stride and base are the fields R62 places. -/
def Obligations.DecodingReadsTheFieldTable : Prop :=
  ∀ D : Descriptor,
    (D.extractLsb' 6 10 ≠ 0 → decode D = .error .bits) ∧
    (D.extractLsb' 6 10 = 0 → D.extractLsb' 4 2 = 3 → decode D = .error .depth) ∧
    (D.extractLsb' 6 10 = 0 → D.extractLsb' 4 2 ≠ 3 → D.getLsbD 3 = false → D.extractLsb' 40 24 ≠ 0 →
      decode D = .error .params) ∧
    (D.extractLsb' 6 10 = 0 → D.extractLsb' 4 2 ≠ 3 → (D.getLsbD 3 = false → D.extractLsb' 40 24 = 0) →
      ∃ i, decode D = .ok i ∧
        i.cmd.width.total = [4, 6, 8, 14].getD (D.extractLsb' 0 2).toNat 0 ∧
        i.cmd.orient = (if D.getLsbD 2 = false then .horizontal else .vertical) ∧
        i.cmd.segments = (if D.getLsbD 3 = false then 1 else 2) ∧
        i.cmd.depth.bd = [8, 10, 12].getD (D.extractLsb' 4 2).toNat 0 ∧
        i.cmd.par0.blimit = (D.extractLsb' 16 8).toNat ∧ i.cmd.par0.limit = (D.extractLsb' 24 8).toNat ∧
        i.cmd.par0.thresh = (D.extractLsb' 32 8).toNat ∧
        (i.cmd.dual = true →
          i.cmd.par1.blimit = (D.extractLsb' 40 8).toNat ∧ i.cmd.par1.limit = (D.extractLsb' 48 8).toNat ∧
          i.cmd.par1.thresh = (D.extractLsb' 56 8).toNat) ∧
        i.cmd.stride = (D.extractLsb' 64 32).toInt ∧
        i.cmd.base = (D.extractLsb' 96 32).toNat)

/-! ### Arithmetic primitives -/

/-- R7: the absolute difference is the sum (and the bitwise OR) of the two saturating differences, one of which is
zero. -/
def Obligations.AbsoluteDifferenceFromSaturation : Prop :=
  ∀ a b : Int, 0 ≤ a → 0 ≤ b →
    satsub a b = max (a - b) 0 ∧ absdiff a b = |a - b| ∧ absdiff a b = satsub a b + satsub b a ∧
    (satsub a b = 0 ∨ satsub b a = 0) ∧
    (absdiff a b).toNat = (satsub a b).toNat ||| (satsub b a).toNat

/-- R89, which the spec marks as derived: for non-negative integers, "subtract and compare to zero" is the test `d ≤
t`. -/
def Obligations.SaturatedTestIsAtMost : Prop := ∀ d t : Int, 0 ≤ d → 0 ≤ t → (satsub d t = 0 ↔ d ≤ t)

/-- R10: the right shift rounds toward minus infinity, at every integer and every shift. -/
def Obligations.RightShiftIsFloor : Prop := ∀ (v : Int) (n : Nat), asr v n = ⌊(v : ℚ) / 2 ^ n⌋

/-- R9, R8: the clamp is `min(max(v, smin), smax)`: it answers in `[-2^(bd-1), 2^(bd-1)-1]`,
changes nothing there, and is idempotent. -/
def Obligations.ClampIsIdempotentOntoSignedRange : Prop :=
  ∀ (d : Depth) (v : Int),
    clampBd d v = min (max v (-(2 ^ (d.bd - 1)))) (2 ^ (d.bd - 1) - 1) ∧
    (-(2 ^ (d.bd - 1)) ≤ clampBd d v ∧ clampBd d v ≤ 2 ^ (d.bd - 1) - 1) ∧
    (-(2 ^ (d.bd - 1)) ≤ v → v ≤ 2 ^ (d.bd - 1) - 1 → clampBd d v = v) ∧ clampBd d (clampBd d v) = clampBd d v

/-- R8, R101: for an in-range sample, exclusive or with the bias, read as a `bd`-bit two's complement number, is
subtraction of the bias; it lies in `[smin(bd), smax(bd)]`. -/
def Obligations.SignedCentringIsExclusiveOr : Prop :=
  ∀ (d : Depth) (x : Nat), x ≤ d.pmax →
    (BitVec.ofNat d.bd x ^^^ BitVec.ofNat d.bd (2 ^ (d.bd - 1))).toInt = (x : Int) - d.bias ∧
    d.smin ≤ (x : Int) - d.bias ∧ (x : Int) - d.bias ≤ d.smax

/-! ### Mask Engine -/

/-- R81, R23: the four thresholds of a triple at each depth are the raw bytes and the bound 1 times `2^(bd-8)`, with
the ranges R23 gives. -/
def Obligations.ThresholdsAreScaledBytes : Prop :=
  ∀ (d : Depth) (p : Params), p.wf = true →
    let t := scaleThresholds d p
    t.bl = p.blimit <<< (d.bd - 8) ∧ t.li = p.limit <<< (d.bd - 8) ∧ t.th = p.thresh <<< (d.bd - 8) ∧
    t.ft = (match d with | .d8 => 1 | .d10 => 4 | .d12 => 16) ∧
    t.bl ≤ 255 * 2 ^ (d.bd - 8) ∧ t.li ≤ 255 * 2 ^ (d.bd - 8) ∧ t.th ≤ 255 * 2 ^ (d.bd - 8)

/-- R82: `hev` holds exactly when one of the two inner steps exceeds `TH`, strictly; it does not depend on the width
or on `BL` and `LI`. -/
def Obligations.HighVarianceIsAStrictInnerStep : Prop :=
  ∀ (f f' : Bool) (w w' : Width) (t t' : Thresholds) (p q : Side),
    ((maskEngine f w t p q).hev = true ↔
      (t.th : Int) < absdiff (p.px 1) (p.px 0) ∨ (t.th : Int) < absdiff (q.px 1) (q.px 0)) ∧
    (t'.th = t.th → (maskEngine f' w' t' p q).hev = (maskEngine f w t p q).hev)

/-- R85 with R83 and R84: `mask` holds exactly when `2|p0-q0| + ⌊|p1-q1|/2⌋ ≤ BL` and every step between neighbouring
samples that the width has, up to index 3, is at most `LI`. -/
def Obligations.MaskHoldsExactlyWithinLimits : Prop :=
  ∀ (f : Bool) (w : Width) (t : Thresholds) (p q : Side),
    (maskEngine f w t p q).mask = true ↔
      2 * absdiff (p.px 0) (q.px 0) + absdiff (p.px 1) (q.px 1) / 2 ≤ t.bl ∧
      ∀ k, 1 ≤ k → k < w.K → k ≤ 3 →
        absdiff (p.px k) (p.px (k - 1)) ≤ t.li ∧ absdiff (q.px k) (q.px (k - 1)) ≤ t.li

/-- R86: `flat` holds exactly when the width has a flat tier, `mask` holds, and every spread from the edge sample that
the width has, from index 2 (index 1 with `FLAT_INCLUDES_P1Q1`) up to index 3, is at most `FT`. -/
def Obligations.FlatHoldsExactlyWithinBound : Prop :=
  ∀ (f : Bool) (w : Width) (t : Thresholds) (p q : Side),
    (maskEngine f w t p q).flat = true ↔
      w ≠ .w4 ∧ (maskEngine f w t p q).mask = true ∧
      ∀ k, (if f then 1 else 2) ≤ k → k < w.K → k ≤ 3 →
        absdiff (p.px k) (p.px 0) ≤ t.ft ∧ absdiff (q.px k) (q.px 0) ≤ t.ft

/-- R87: `flat2` holds exactly at width 14 when `flat` holds and the outer spreads, indices 4 to 6, are at most `FT`.
-/
def Obligations.FlatTwoHoldsExactlyWithinBound : Prop :=
  ∀ (f : Bool) (w : Width) (t : Thresholds) (p q : Side),
    (maskEngine f w t p q).flat2 = true ↔
      w = .w14 ∧ (maskEngine f w t p q).flat = true ∧
      ∀ k, 4 ≤ k → k ≤ 6 → absdiff (p.px k) (p.px 0) ≤ t.ft ∧ absdiff (q.px k) (q.px 0) ≤ t.ft

/-- R90, which the spec marks as derived: `flat2 ⇒ flat ⇒ mask` at every width, so a line without `mask` has neither;
`hev` is independent of the others: `hev && flat`, `hev && !mask` and `!hev && flat2` all occur. -/
def Obligations.FlatnessTiersImplyMask : Prop :=
  (∀ (f : Bool) (w : Width) (t : Thresholds) (p q : Side),
    ((maskEngine f w t p q).flat2 = true → (maskEngine f w t p q).flat = true) ∧
    ((maskEngine f w t p q).flat = true → (maskEngine f w t p q).mask = true) ∧
    ((maskEngine f w t p q).mask = false →
      (maskEngine f w t p q).flat = false ∧ (maskEngine f w t p q).flat2 = false)) ∧
  (∃ w t p q, (maskEngine false w t p q).hev = true ∧ (maskEngine false w t p q).flat = true) ∧
  (∃ w t p q, (maskEngine false w t p q).hev = true ∧ (maskEngine false w t p q).mask = false) ∧
  (∃ w t p q, (maskEngine false w t p q).hev = false ∧ (maskEngine false w t p q).flat2 = true)

/-- R91: the two readings of `flat` differ exactly on the lines of width 6 and above where `mask` holds, the source's
arguments are at most `FT`, and the larger inner step lies above `FT` (it is then at most `LI`). -/
def Obligations.FlatReadingsDifferExactlyOnInnerJumps : Prop :=
  ∀ (w : Width) (t : Thresholds) (p q : Side),
    (maskEngine true w t p q).flat ≠ (maskEngine false w t p q).flat ↔
      (maskEngine false w t p q).flat = true ∧
      (t.ft : Int) < max (absdiff (p.px 1) (p.px 0)) (absdiff (q.px 1) (q.px 0)) ∧
      max (absdiff (p.px 1) (p.px 0)) (absdiff (q.px 1) (q.px 0)) ≤ t.li

/-! ### Filter4 -/

/-- R108, first sentence, which the spec marks as derived: without `mask`, Filter4 is the identity on in-range
samples. -/
def Obligations.FilterFourWithoutMaskIsIdentity : Prop :=
  ∀ (d : Depth) (hev : Bool) (p1 p0 q0 q1 : Nat), p1 ≤ d.pmax → p0 ≤ d.pmax → q0 ≤ d.pmax → q1 ≤ d.pmax →
    filter4 d false hev p1 p0 q0 q1 = { p1 := p1, p0 := p0, q0 := q0, q1 := q1 }

/-- R104's ranges, which the spec marks as derived: `filter1` and `filter2` lie in `[smin/8, asr(smax, 3)]` and
`filter1 - filter2` is 0 or 1. -/
def Obligations.FilterFourStepsAreBounded : Prop :=
  ∀ (d : Depth) (adj : Int),
    (d.smin / 8 ≤ filter1 d adj ∧ filter1 d adj ≤ asr d.smax 3) ∧
    (d.smin / 8 ≤ filter2 d adj ∧ filter2 d adj ≤ asr d.smax 3) ∧
    (filter1 d adj - filter2 d adj = 0 ∨ filter1 d adj - filter2 d adj = 1)

/-- R109, which the spec marks as derived: every output of Filter4 is a sample, whatever its inputs. -/
def Obligations.FilterFourOutputsAreSamples : Prop :=
  ∀ (d : Depth) (mask hev : Bool) (p1 p0 q0 q1 : Int),
    let o := filter4 d mask hev p1 p0 q0 q1
    (0 ≤ o.p1 ∧ o.p1 ≤ d.pmax) ∧ (0 ≤ o.p0 ∧ o.p0 ≤ d.pmax) ∧ (0 ≤ o.q0 ∧ o.q0 ≤ d.pmax) ∧
      (0 ≤ o.q1 ∧ o.q1 ≤ d.pmax)

/-- R107, last sentence: with `hev`, Filter4 leaves `p1` and `q1` exactly as they are. -/
def Obligations.HighVarianceKeepsOuterSamples : Prop :=
  ∀ (d : Depth) (mask : Bool) (p1 p0 q0 q1 : Nat), p1 ≤ d.pmax → q1 ≤ d.pmax →
    (filter4 d mask true p1 p0 q0 q1).p1 = p1 ∧ (filter4 d mask true p1 p0 q0 q1).q1 = q1

/-- When Filter4 with `mask` changes nothing. R108 says "exactly when `adj ∈ [-3, 3]`" and derives it from R103 to
R107; those rules themselves leave a line unchanged at two more corners, where the clamp of R105 absorbs the move:
`adj = -4` with `p0 = 0`, and `adj = 4` with `q0 = 0` under `hev`. This states what R103 to R107 give (assumption 13).
-/
def Obligations.FilterFourFixesExactlySmallAdjustments : Prop :=
  ∀ (d : Depth) (hev : Bool) (p1 p0 q0 q1 : Nat), p1 ≤ d.pmax → p0 ≤ d.pmax → q0 ≤ d.pmax → q1 ≤ d.pmax →
    let adj := lineAdjust d true hev p1 p0 q0 q1
    filter4 d true hev p1 p0 q0 q1 = { p1 := p1, p0 := p0, q0 := q0, q1 := q1 } ↔
      (-3 ≤ adj ∧ adj ≤ 3) ∨ (adj = -4 ∧ p0 = 0) ∨ (adj = 4 ∧ q0 = 0 ∧ hev = true)

/-! ### Averages and Blender -/

/-- R119, R123, R138, which the spec marks as derived: an average of samples is a sample at every output position, and
a constant line is a fixed point of every averaging stage: six equal samples of Filter6, eight of Filter8, fourteen of
Filter14. -/
def Obligations.AveragesStayInSampleRange : Prop :=
  ∀ (p q : Side) (top : Nat), (∀ k, p.getD k 0 ≤ top) → (∀ k, q.getD k 0 ≤ top) →
    ∀ stage ∈ [(3, avg6 p q), (4, avg8 p q), (7, avg14 p q)],
      (∀ x ∈ stage.2.p ++ stage.2.q, 0 ≤ x ∧ x ≤ top) ∧
      ∀ v : Nat, (∀ k < stage.1, p.getD k 0 = v ∧ q.getD k 0 = v) → ∀ x ∈ stage.2.p ++ stage.2.q, x = v

/-- R116 generates R117, R120 and R136: at every output position the explicit row of weights is the width's kernel
centred there, with taps beyond the outermost sample replicating it. -/
def Obligations.KernelFormGeneratesTheWeightTables : Prop :=
  ∀ p q : Side,
    (∀ k < 2, (avg6 p q).p.getD k 0 = kernelAvg .w6 p q (3 - 1 - k) ∧ (avg6 p q).q.getD k 0 = kernelAvg .w6 p q (3 + k)) ∧
    (∀ k < 3, (avg8 p q).p.getD k 0 = kernelAvg .w8 p q (4 - 1 - k) ∧ (avg8 p q).q.getD k 0 = kernelAvg .w8 p q (4 + k)) ∧
    (∀ k < 6,
      (avg14 p q).p.getD k 0 = kernelAvg .w14 p q (7 - 1 - k) ∧ (avg14 p q).q.getD k 0 = kernelAvg .w14 p q (7 + k))

/-- R156 to R159, by the line classes of R159's table: without `mask` the original sample everywhere; with `mask` but
not `flat` the Filter4 result at indices 0 and 1 and the original beyond; with `flat` but not `flat2` the middle
average up to index 2 and the original beyond; with `flat2` the 13-tap average. -/
def Obligations.FinestTrueTierIsSelected : Prop :=
  ∀ (f : Bool) (w : Width) (d : Depth) (t : Thresholds) (p q : Side),
    (∀ k, p.getD k 0 ≤ d.pmax) → (∀ k, q.getD k 0 ≤ d.pmax) →
    let m := maskEngine f w t p q
    let f4 := lineFilter4 d m p q
    ∀ k < w.M,
      (m.mask = false → blendP w d m p q k = p.px k ∧ blendQ w d m p q k = q.px k) ∧
      (m.mask = true → m.flat = false →
        blendP w d m p q k = (if k = 0 then f4.p0 else if k = 1 then f4.p1 else p.px k) ∧
        blendQ w d m p q k = (if k = 0 then f4.q0 else if k = 1 then f4.q1 else q.px k)) ∧
      (m.flat = true → m.flat2 = false →
        blendP w d m p q k = (if k < 3 then (if w = .w6 then avg6 p q else avg8 p q).p.getD k 0 else p.px k) ∧
        blendQ w d m p q k = (if k < 3 then (if w = .w6 then avg6 p q else avg8 p q).q.getD k 0 else q.px k)) ∧
      (m.flat2 = true →
        blendP w d m p q k = (avg14 p q).p.getD k 0 ∧ blendQ w d m p q k = (avg14 p q).q.getD k 0)

/-- R160: on a line whose `flat` holds, `hev` (and so `TH`) changes no result. -/
def Obligations.HighVarianceDoesNotGateAverages : Prop :=
  ∀ (f : Bool) (w : Width) (d : Depth) (t : Thresholds) (th : Nat) (p q : Side),
    (maskEngine f w t p q).flat = true →
    ∀ k, blendP w d (maskEngine f w { t with th := th } p q) p q k = blendP w d (maskEngine f w t p q) p q k ∧
      blendQ w d (maskEngine f w { t with th := th } p q) p q k = blendQ w d (maskEngine f w t p q) p q k

/-- R163, which the spec marks as derived: every result of a line of in-range samples is in `[0, pmax(bd)]`. -/
def Obligations.ResultsStayInSampleRange : Prop :=
  ∀ (f : Bool) (w : Width) (d : Depth) (t : Thresholds) (p q : Side),
    (∀ k, p.getD k 0 ≤ d.pmax) → (∀ k, q.getD k 0 ≤ d.pmax) →
    ∀ k < w.M,
      (0 ≤ blendP w d (maskEngine f w t p q) p q k ∧ blendP w d (maskEngine f w t p q) p q k ≤ d.pmax) ∧
      (0 ≤ blendQ w d (maskEngine f w t p q) p q k ∧ blendQ w d (maskEngine f w t p q) p q k ≤ d.pmax)

/-- R161, which the spec marks as derived: a line whose `mask` is false is returned unchanged, so its `mask` is false
again when the same filter runs on what was returned. The line keeps its read-only outermost samples. -/
def Obligations.UnfilteredLineIsAFixedPoint : Prop :=
  ∀ (f : Bool) (w : Width) (d : Depth) (t : Thresholds) (r : LineRegs),
    r.p.length = w.K → r.q.length = w.K → (∀ k, r.p.getD k 0 ≤ d.pmax) → (∀ k, r.q.getD k 0 ≤ d.pmax) →
    (filterLine f w d t r).masks.mask = false →
    let r' := filterLine f w d t r
    let again := { r with p := r'.oP ++ r.p.drop w.M, q := r'.oQ ++ r.q.drop w.M }
    r'.oP = r.p.take w.M ∧ r'.oQ = r.q.take w.M ∧ (filterLine f w d t again).masks.mask = false

/-- R164, which the spec marks as derived: a constant line is a fixed point at every width, depth and threshold:
`mask` holds, `hev` does not, and every result is the constant. -/
def Obligations.ConstantLineIsAFixedPoint : Prop :=
  ∀ (f : Bool) (w : Width) (d : Depth) (t : Thresholds) (p q : Side) (v : Nat), v ≤ d.pmax →
    (∀ k < w.K, p.px k = v ∧ q.px k = v) →
    (maskEngine f w t p q).mask = true ∧ (maskEngine f w t p q).hev = false ∧
    ∀ k < w.M, blendP w d (maskEngine f w t p q) p q k = v ∧ blendQ w d (maskEngine f w t p q) p q k = v

/-! ### Orientation Adapter -/

/-- R174, R175: the footprint has `2 × K × N` positions and the write set `2 × M × N`; every written address is read;
and where the footprint has no repeated address, a read address is written exactly when its index is below `M`, so the
outermost sample of widths 6, 8 and 14 is read only. -/
def Obligations.WriteSetIsTheInnerFootprint : Prop :=
  ∀ (c : Cmd) (L : Nat),
    (c.footprint L).length = 2 * c.width.K * c.nLines L ∧ (c.writeSet L).length = 2 * c.width.M * c.nLines L ∧
    (∀ a ∈ c.writeSet L, a ∈ c.footprint L) ∧
    ((c.footprint L).Nodup → ∀ n < c.nLines L, ∀ k < c.width.K,
      (c.addrP n k ∈ c.writeSet L ↔ k < c.width.M) ∧ (c.addrQ n k ∈ c.writeSet L ↔ k < c.width.M))

/-- R181's clause that the spec marks as derived: the footprint addresses are distinct exactly when `|STRIDE| ≥ E × L`
for a horizontal edge, and exactly when `|STRIDE| ≥ 2 × K` for a vertical edge of at least two lines (with one line a
vertical footprint is a single row, which R181's equivalence does not consider: its `L` is 4 or 8; assumption 15). -/
def Obligations.FootprintDistinctExactlyForWideStrides : Prop :=
  ∀ (c : Cmd) (L : Nat),
    (c.orient = .horizontal → 1 ≤ c.nLines L → ((c.footprint L).Nodup ↔ (c.nLines L : Int) ≤ |c.stride|)) ∧
    (c.orient = .vertical → 2 ≤ c.nLines L → ((c.footprint L).Nodup ↔ (2 * c.width.K : Int) ≤ |c.stride|))

/-! ### Commands -/

/-- R192, R196, R200, R204 (R156): the four width-4 commands complete inside the contract, and leave the Filter4
results at `p1, p0, q0, q1` of every line. -/
def Obligations.WidthFourCommandsComplete : Prop :=
  ∀ (d : Depth) (base : Nat) (stride : Int) (par par' : Params) (s : State),
    ∀ i ∈ [Instr.lpfH4 d base stride par, .lpfV4 d base stride par, .lpfH4D d base stride par par',
      .lpfV4D d base stride par par'],
    Ready s i →
    Completes (exec i s) fun t =>
      ∀ n < i.cmd.nLines s.cfg.linesPerSegment,
        let f4 := lineFilter4 d (lineMasks s.cfg s.mem i.cmd n) (gatheredP s.mem i.cmd n) (gatheredQ s.mem i.cmd n)
        (t.mem.sample (i.cmd.addrP n 1) : Int) = f4.p1 ∧ (t.mem.sample (i.cmd.addrP n 0) : Int) = f4.p0 ∧
        (t.mem.sample (i.cmd.addrQ n 0) : Int) = f4.q0 ∧ (t.mem.sample (i.cmd.addrQ n 1) : Int) = f4.q1

/-- R193, R197, R201, R205 (R157): the four width-6 commands complete inside the contract, and leave at `p1, p0, q0,
q1` of every line the 5-tap averages where `flat` holds and the Filter4 results elsewhere; `p2` and `q2` keep their
values. -/
def Obligations.WidthSixCommandsComplete : Prop :=
  ∀ (d : Depth) (base : Nat) (stride : Int) (par par' : Params) (s : State),
    ∀ i ∈ [Instr.lpfH6 d base stride par, .lpfV6 d base stride par, .lpfH6D d base stride par par',
      .lpfV6D d base stride par par'],
    Ready s i →
    Completes (exec i s) fun t =>
      ∀ n < i.cmd.nLines s.cfg.linesPerSegment,
        let P := gatheredP s.mem i.cmd n
        let Q := gatheredQ s.mem i.cmd n
        let m := lineMasks s.cfg s.mem i.cmd n
        let f4 := lineFilter4 d m P Q
        let a := avg6 P Q
        (t.mem.sample (i.cmd.addrP n 1) : Int) = (if m.flat then a.p.getD 1 0 else f4.p1) ∧
        (t.mem.sample (i.cmd.addrP n 0) : Int) = (if m.flat then a.p.getD 0 0 else f4.p0) ∧
        (t.mem.sample (i.cmd.addrQ n 0) : Int) = (if m.flat then a.q.getD 0 0 else f4.q0) ∧
        (t.mem.sample (i.cmd.addrQ n 1) : Int) = (if m.flat then a.q.getD 1 0 else f4.q1) ∧
        t.mem.sample (i.cmd.addrP n 2) = s.mem.sample (i.cmd.addrP n 2) ∧
        t.mem.sample (i.cmd.addrQ n 2) = s.mem.sample (i.cmd.addrQ n 2)

/-- R194, R198, R202, R206 (R158): the four width-8 commands complete inside the contract, and leave at indices 0 to 2
of every line the 7-tap averages where `flat` holds, elsewhere the Filter4 results at indices 0 and 1 and the original
sample at index 2; `p3` and `q3` keep their values. -/
def Obligations.WidthEightCommandsComplete : Prop :=
  ∀ (d : Depth) (base : Nat) (stride : Int) (par par' : Params) (s : State),
    ∀ i ∈ [Instr.lpfH8 d base stride par, .lpfV8 d base stride par, .lpfH8D d base stride par par',
      .lpfV8D d base stride par par'],
    Ready s i →
    Completes (exec i s) fun t =>
      ∀ n < i.cmd.nLines s.cfg.linesPerSegment,
        let P := gatheredP s.mem i.cmd n
        let Q := gatheredQ s.mem i.cmd n
        let m := lineMasks s.cfg s.mem i.cmd n
        let f4 := lineFilter4 d m P Q
        let a := avg8 P Q
        (t.mem.sample (i.cmd.addrP n 2) : Int) = (if m.flat then a.p.getD 2 0 else s.mem.sample (i.cmd.addrP n 2)) ∧
        (t.mem.sample (i.cmd.addrP n 1) : Int) = (if m.flat then a.p.getD 1 0 else f4.p1) ∧
        (t.mem.sample (i.cmd.addrP n 0) : Int) = (if m.flat then a.p.getD 0 0 else f4.p0) ∧
        (t.mem.sample (i.cmd.addrQ n 0) : Int) = (if m.flat then a.q.getD 0 0 else f4.q0) ∧
        (t.mem.sample (i.cmd.addrQ n 1) : Int) = (if m.flat then a.q.getD 1 0 else f4.q1) ∧
        (t.mem.sample (i.cmd.addrQ n 2) : Int) = (if m.flat then a.q.getD 2 0 else s.mem.sample (i.cmd.addrQ n 2)) ∧
        t.mem.sample (i.cmd.addrP n 3) = s.mem.sample (i.cmd.addrP n 3) ∧
        t.mem.sample (i.cmd.addrQ n 3) = s.mem.sample (i.cmd.addrQ n 3)

/-- R195, R199, R203, R207 (R159): the four width-14 commands complete inside the contract, and leave at indices 0 to
5 of every line the 13-tap averages where `flat2` holds; elsewhere, where `flat` holds, the 7-tap averages at indices
0 to 2; elsewhere the Filter4 results at indices 0 and 1; and the original sample at the other indices; `p6` and `q6`
keep their values. -/
def Obligations.WidthFourteenCommandsComplete : Prop :=
  ∀ (d : Depth) (base : Nat) (stride : Int) (par par' : Params) (s : State),
    ∀ i ∈ [Instr.lpfH14 d base stride par, .lpfV14 d base stride par, .lpfH14D d base stride par par',
      .lpfV14D d base stride par par'],
    Ready s i →
    Completes (exec i s) fun t =>
      ∀ n < i.cmd.nLines s.cfg.linesPerSegment,
        let P := gatheredP s.mem i.cmd n
        let Q := gatheredQ s.mem i.cmd n
        let m := lineMasks s.cfg s.mem i.cmd n
        let f4 := lineFilter4 d m P Q
        let inner := avg8 P Q
        let wide := avg14 P Q
        (∀ k < 6,
          (t.mem.sample (i.cmd.addrP n k) : Int) =
            (if m.flat2 then wide.p.getD k 0
             else if m.flat ∧ k < 3 then inner.p.getD k 0
             else if k = 0 then f4.p0 else if k = 1 then f4.p1 else s.mem.sample (i.cmd.addrP n k))) ∧
        (∀ k < 6,
          (t.mem.sample (i.cmd.addrQ n k) : Int) =
            (if m.flat2 then wide.q.getD k 0
             else if m.flat ∧ k < 3 then inner.q.getD k 0
             else if k = 0 then f4.q0 else if k = 1 then f4.q1 else s.mem.sample (i.cmd.addrQ n k))) ∧
        t.mem.sample (i.cmd.addrP n 6) = s.mem.sample (i.cmd.addrP n 6) ∧
        t.mem.sample (i.cmd.addrQ n 6) = s.mem.sample (i.cmd.addrQ n 6)

/-- The frame of all sixteen commands (R190: "changes `mem` only on `W ⊆ F`"; R175): when a command gives a next
state, every sample address outside its write set reads as before; the parameters, the script, the free-value counter
and every other engine are unchanged; and its own engine is `IDLE` and has `done` asserted (R61). That it also keeps its
command latch then is the model's choice (assumption 4): R26 calls the latch dead once the command completes. The
script and the free-value counter are the model's own (assumptions 5 and 6), and that no command changes the parameters
is read from R5 (assumption 9). -/
def Obligations.CommandsChangeOnlyTheirWriteSet : Prop :=
  ∀ (i : Instr) (s t : State), exec i s = .next t →
    (∀ a : Nat, (∀ n < i.cmd.nLines s.cfg.linesPerSegment, ∀ k < i.cmd.width.M,
        a ≠ (i.cmd.addrP n k).toNat ∧ a ≠ (i.cmd.addrQ n k).toNat) → t.mem.read a = s.mem.read a) ∧
    t.cfg = s.cfg ∧ t.cur = s.cur ∧ t.inputs = s.inputs ∧ t.freeCtr = s.freeCtr ∧
    t.engines.length = s.engines.length ∧ (∀ j, j ≠ s.cur → t.engines[j]? = s.engines[j]?) ∧
    ∃ e e', s.engines[s.cur]? = some e ∧ t.engines[s.cur]? = some e' ∧ e'.latch = e.latch ∧ e'.st = .idle ∧
      e'.done = true

/-- R190, R223: a command is refused exactly when its footprint leaves the memory, else repeats an address, else holds
a sample above `pmax(bd)`, reported in that order (R222); it never faults, so it completes in every other case. -/
def Obligations.CommandsRefuseExactlyOutsideContract : Prop :=
  ∀ (i : Instr) (s : State), s.cur < s.engines.length →
    let F := i.cmd.footprint s.cfg.linesPerSegment
    let leaves := ∃ a ∈ F, a < 0 ∨ (s.cfg.memSamples : Int) ≤ a
    let large := ∃ a ∈ F, i.cmd.depth.pmax < s.mem.sample a
    (exec i s = .refused .footprintOutOfRange ↔ leaves) ∧
    (exec i s = .refused .footprintAlias ↔ ¬leaves ∧ ¬F.Nodup) ∧
    (exec i s = .refused .sampleOutOfRange ↔ ¬leaves ∧ F.Nodup ∧ large) ∧
    ((∃ t, exec i s = .next t) ↔ ¬leaves ∧ F.Nodup ∧ ¬large)

/-- R209 (d), which the spec marks as derived: a command whose every line has `mask = false` leaves the memory
unchanged. -/
def Obligations.CommandWithoutMaskLeavesMemory : Prop :=
  ∀ (i : Instr) (s t : State), exec i s = .next t →
    (∀ n < i.cmd.nLines s.cfg.linesPerSegment, (lineMasks s.cfg s.mem i.cmd n).mask = false) →
    ∀ a, t.mem.read a = s.mem.read a

/-- R190, R29, R241: what a command writes is a function of the command and the samples of its footprint alone. Two
machines with the same parameters whose memories agree on the footprint, whatever else they hold (the other samples,
and every status, latch, threshold, scratch, line register and mask left by reset or by earlier commands), both
complete it and then agree on every address it wrote. -/
def Obligations.CommandsReadOnlyTheirFootprint : Prop :=
  ∀ (i : Instr) (s u t : State), s.cfg = u.cfg → u.cur < u.engines.length →
    (∀ a ∈ i.cmd.footprint s.cfg.linesPerSegment, u.mem.sample a = s.mem.sample a) →
    exec i s = .next t →
    Completes (exec i u) fun t' =>
      ∀ n < i.cmd.nLines s.cfg.linesPerSegment, ∀ k < i.cmd.width.M,
        t'.mem.sample (i.cmd.addrP n k) = t.mem.sample (i.cmd.addrP n k) ∧
        t'.mem.sample (i.cmd.addrQ n k) = t.mem.sample (i.cmd.addrQ n k)

/-- R22, R23, R25, R27: what its engine's working registers hold when a command has completed: the scaled thresholds
of both triples, and for every line the gathered samples, the Mask Engine's Booleans, the Blender's results, and in
the scratch the line from its outermost `p` sample to its outermost `q` sample. That they still hold it after the
command is the model's choice (assumption 4): the spec calls them unreadable then. So are the scratch's layout and its
use for a horizontal edge (assumption 21). -/
def Obligations.WorkingRegistersHoldTheCommand : Prop :=
  ∀ (i : Instr) (s t : State), exec i s = .next t →
    ∃ e, t.engines[s.cur]? = some e ∧
      e.thr0 = scaleThresholds i.cmd.depth i.cmd.par0 ∧ e.thr1 = scaleThresholds i.cmd.depth i.cmd.par1 ∧
      e.lines.length = i.cmd.nLines s.cfg.linesPerSegment ∧ e.scratch.length = i.cmd.nLines s.cfg.linesPerSegment ∧
      ∀ n < i.cmd.nLines s.cfg.linesPerSegment, ∃ r, e.lines[n]? = some r ∧
        r.p = gatheredP s.mem i.cmd n ∧ r.q = gatheredQ s.mem i.cmd n ∧ r.masks = lineMasks s.cfg s.mem i.cmd n ∧
        e.scratch[n]? = some (r.p.reverse ++ r.q) ∧ r.oP.length = i.cmd.width.M ∧ r.oQ.length = i.cmd.width.M ∧
        ∀ k < i.cmd.width.M,
          r.oP.px k = resultP s.cfg s.mem i.cmd n k ∧ r.oQ.px k = resultQ s.cfg s.mem i.cmd n k

/-- R178, which the spec marks as derived: a dual command equals the two single commands of the same width,
orientation, depth and stride, the first with triple 0 at `BASE`, the second with triple 1 at `BASE + L` (horizontal)
or `BASE + L × STRIDE` (vertical), in either order; and it is inside the contract exactly when both are and their
footprints are disjoint. -/
def Obligations.DualEqualsTwoSingles : Prop :=
  ∀ (o : Orient) (w : Width) (d : Depth) (base base1 : Nat) (stride : Int) (par0 par1 : Params) (s : State),
    (base1 : Int) = base + (match o with
      | .horizontal => (s.cfg.linesPerSegment : Int)
      | .vertical => s.cfg.linesPerSegment * stride) →
    let dual := instrOf true o w d base stride par0 par1
    let first := instrOf false o w d base stride par0 par1
    let second := instrOf false o w d base1 stride par1 par1
    (Ready s dual ↔ Ready s first ∧ Ready s second ∧
      ∀ a ∈ first.cmd.footprint s.cfg.linesPerSegment, a ∉ second.cmd.footprint s.cfg.linesPerSegment) ∧
    (Ready s dual → ∃ t t0 t01 t1 t10,
      exec dual s = .next t ∧
      exec first s = .next t0 ∧ exec second t0 = .next t01 ∧
      exec second s = .next t1 ∧ exec first t1 = .next t10 ∧
      ∀ a, t01.mem.read a = t.mem.read a ∧ t10.mem.read a = t.mem.read a)

/-- R176, which the spec marks as derived: vertical filtering is transpose, horizontal filter, inverse transpose. Let
`u` hold the transposed buffer `tmp[j × N + n] = mem[BASE + n × STRIDE + (j - K)]`, `0 ≤ j < 2K`, `0 ≤ n < N`. If the
vertical command is inside the contract, both it and the horizontal command of the same width, arity, depth and
triples with `BASE = K × N`, `STRIDE = N` on `u` complete; the copied-back rows `K - M ≤ j < K + M` hold the
horizontal command's samples, and every other address keeps its sample. -/
def Obligations.VerticalEqualsTransposedHorizontal : Prop :=
  ∀ (dual : Bool) (w : Width) (d : Depth) (base : Nat) (stride : Int) (par0 par1 : Params) (s u : State),
    let N := (if dual then 2 else 1) * s.cfg.linesPerSegment
    let vertical := instrOf dual .vertical w d base stride par0 par1
    let horizontal := instrOf dual .horizontal w d (w.K * N) N par0 par1
    let place := fun j n : Nat => ((base : Int) + n * stride + (j - w.K)).toNat
    u.cfg.linesPerSegment = s.cfg.linesPerSegment → u.cfg.flatIncludesP1Q1 = s.cfg.flatIncludesP1Q1 →
    2 * w.K * N ≤ u.cfg.memSamples → u.cur < u.engines.length →
    (∀ n < N, ∀ j < 2 * w.K, u.mem.read (j * N + n) = s.mem.read (place j n)) →
    Ready s vertical →
    ∃ t t', exec vertical s = .next t ∧ exec horizontal u = .next t' ∧
      (∀ n < N, ∀ j, w.K - w.M ≤ j → j < w.K + w.M → t.mem.read (place j n) = t'.mem.read (j * N + n)) ∧
      ∀ a, (∀ n < N, ∀ j, w.K - w.M ≤ j → j < w.K + w.M → a ≠ place j n) → t.mem.read a = s.mem.read a

/-! ### The machine -/

/-- R61, R26: at the turn of a `BUSY` engine whose latch decodes to `i`, a step is `exec i` of the state whose script
has moved on, whose `done` outputs are deasserted, and whose moving engine is that one; with no event left, the same
holds of the lowest-numbered `BUSY` engine. The model's choices here: the script, the turn and the moving engine `cur`
(assumption 5), that `done` is deasserted as the event begins (assumption 17), and the order with no event left
(assumption 8). -/
def Obligations.StepRunsTheLatchedCommand : Prop :=
  (∀ (s : State) (e : Nat) (rest : List Input) (eng : Engine) (i : Instr),
    s.inputs = .turn e :: rest → s.engines[e]? = some eng → eng.st = .busy → decode eng.latch = .ok i →
    step s = exec i { clearDone s with inputs := rest, cur := e }) ∧
  (∀ (s : State) (e : Nat) (eng : Engine) (i : Instr),
    s.inputs = [] → s.engines[e]? = some eng → eng.st = .busy → decode eng.latch = .ok i →
    (∀ j < e, ∀ f, s.engines[j]? = some f → f.st = .idle) →
    step s = exec i { clearDone s with cur := e })

/-- R61, R49: a legal command presented to an `IDLE` engine is accepted (the engine is `BUSY` with the descriptor
latched, no sample changes), and at the engine's turn it runs to completion: the memory is what `exec` of that command
leaves, the engine is `IDLE` again and `done` is asserted. The script of events and the turn are the model's choice
(assumption 5). -/
def Obligations.IssuedCommandRunsToDone : Prop :=
  ∀ (s : State) (e : Nat) (rest : List Input) (eng : Engine) (i : Instr),
    s.inputs = .issue e (encode i) :: .turn e :: rest → i.wf = true →
    s.engines[e]? = some eng → eng.st = .idle → InContract s.cfg s.mem i.cmd →
    (∀ a ∈ i.cmd.footprint s.cfg.linesPerSegment, heldBySome s a = false) →
    ∃ t u r, step s = .next t ∧ t.mem = s.mem ∧
      (∃ b, t.engines[e]? = some b ∧ b.st = .busy ∧ b.latch = encode i) ∧
      step t = .next u ∧ exec i { s with cur := e } = .next r ∧ u.mem = r.mem ∧ u.inputs = rest ∧
      ∃ b, u.engines[e]? = some b ∧ b.st = .idle ∧ b.done = true

/-- R222, R223: the verdict on a descriptor presented to an engine, in the order of R222: `BusyIssue`, the reserved
reasons in the decoder's order, the footprint and sample reasons, `FootprintOverlap`; and acceptance when none
applies. -/
def Obligations.IssueReportsTheFirstReason : Prop :=
  ∀ (s : State) (e : Nat) (d : Descriptor) (eng : Engine), s.engines[e]? = some eng →
    (eng.st = .busy → issue e d s = .refused .busyIssue) ∧
    (eng.st = .idle → ∀ r, decode d = .error r → issue e d s = .refused (match r with
      | .bits => .reservedBits
      | .depth => .reservedDepth
      | .params => .reservedParams)) ∧
    (eng.st = .idle → ∀ i, decode d = .ok i →
      let F := i.cmd.footprint s.cfg.linesPerSegment
      let leaves := ∃ a ∈ F, a < 0 ∨ (s.cfg.memSamples : Int) ≤ a
      let large := ∃ a ∈ F, i.cmd.depth.pmax < s.mem.sample a
      let overlap := ∃ a ∈ F, heldBySome s a = true
      (issue e d s = .refused .footprintOutOfRange ↔ leaves) ∧
      (issue e d s = .refused .footprintAlias ↔ ¬leaves ∧ ¬F.Nodup) ∧
      (issue e d s = .refused .sampleOutOfRange ↔ ¬leaves ∧ F.Nodup ∧ large) ∧
      (issue e d s = .refused .footprintOverlap ↔ ¬leaves ∧ F.Nodup ∧ ¬large ∧ overlap) ∧
      ((∃ t, issue e d s = .next t) ↔ ¬leaves ∧ F.Nodup ∧ ¬large ∧ ¬overlap))

/-- R61, R28: after a step, `done` is asserted exactly by an engine that went from `BUSY` to `IDLE` in it other than by
reset, that is, by one that completed its command; and by at most one engine. That the pulse does not outlast the next
event is the model's choice (assumption 17), and so is the script a reset is an event of (assumption 5). -/
def Obligations.DonePulsesOnlyAtCompletion : Prop :=
  ∀ (s t : State), step s = .next t →
    t.engines.length = s.engines.length ∧
    ∀ (e : Nat) (before after : Engine), s.engines[e]? = some before → t.engines[e]? = some after →
      (after.done = true ↔ s.inputs.head? ≠ some .reset ∧ before.st = .busy ∧ after.st = .idle) ∧
      (after.done = true →
        ∀ (j : Nat) (other : Engine), j ≠ e → t.engines[j]? = some other → other.done = false)

/-- R229, R254: a host access completes exactly at a sample of the memory that lies in the footprint of no command in
progress; a read changes no sample, a write changes the addressed one alone; at a held address both are refused as
`FootprintOverlap`. -/
def Obligations.HostAccessStaysOutsideHeldFootprints : Prop :=
  ∀ (s : State) (a : Nat) (v : Sample),
    ((∃ t, hostRead a s = .next t) ↔ a < s.cfg.memSamples ∧ heldBySome s a = false) ∧
    ((∃ t, hostWrite a v s = .next t) ↔ a < s.cfg.memSamples ∧ heldBySome s a = false) ∧
    (∀ t, hostRead a s = .next t → t = s) ∧
    (∀ t, hostWrite a v s = .next t →
      t.mem.read a = v ∧ (∀ b, b ≠ a → t.mem.read b = s.mem.read b) ∧ t.engines = s.engines) ∧
    (a < s.cfg.memSamples → heldBySome s a = true →
      hostRead a s = .refused .footprintOverlap ∧ hostWrite a v s = .refused .footprintOverlap)

/-- R240, R242: a reset always succeeds and leaves every engine `IDLE` with `done` deasserted; each sample then holds
its value from before, or is in the write set of a command that was in progress and holds the value that command would
have written there; with no command in progress no sample changes. Which of the two is a free value (assumption 6); that
a reset is one event is read from R240 (assumption 20). -/
def Obligations.ResetKeepsOrFinishesEachSample : Prop :=
  ∀ (s : State) (rest : List Input), s.inputs = .reset :: rest → Consistent s →
    Completes (step s) fun t =>
      (∀ e ∈ t.engines, e.st = .idle ∧ e.done = false) ∧ t.engines.length = s.engines.length ∧
      (∀ a, t.mem.read a = s.mem.read a ∨
        ∃ e ∈ s.engines, ∃ c, e.command = some c ∧
          ∃ n < c.nLines s.cfg.linesPerSegment, ∃ k < c.width.M,
            ((a : Int) = c.addrP n k ∧ (t.mem.sample a : Int) = resultP s.cfg s.mem c n k) ∨
            ((a : Int) = c.addrQ n k ∧ (t.mem.sample a : Int) = resultQ s.cfg s.mem c n k)) ∧
      ((∀ e ∈ s.engines, e.st = .idle) → ∀ a, t.mem.read a = s.mem.read a)

/-- R30, R240: the state after reset satisfies the invariant (with the memory size and contents the model chooses,
assumptions 2 and 3), and in it every engine is `IDLE` with `done` deasserted. -/
def Obligations.ResetStateSatisfiesInvariant : Prop :=
  Consistent State.reset ∧ ∀ e ∈ State.reset.engines, e.st = .idle ∧ e.done = false

/-- Every step keeps the invariant: parameters within R5, memory in canonical form and inside `[0, MEM_SAMPLES)`
(R40), every command in progress legal and inside the contract (R229), and the footprints of commands in progress
disjoint (R50). -/
def Obligations.StepKeepsInvariant : Prop := ∀ s t : State, Consistent s → step s = .next t → Consistent t

/-- R61 ("success is unconditional"), R220, R256: from every state of the invariant, an accepted command completes at
its engine's turn: no fault, no refusal. The turn as an event is the model's choice (assumption 5). -/
def Obligations.AcceptedCommandAlwaysCompletes : Prop :=
  ∀ (s : State) (e : Nat) (rest : List Input) (eng : Engine), Consistent s →
    s.inputs = .turn e :: rest → s.engines[e]? = some eng → eng.st = .busy →
    Completes (step s) fun t =>
      ∃ b, t.engines[e]? = some b ∧ b.st = .idle ∧ b.done = true ∧
        ∀ j f, j ≠ e → s.engines[j]? = some f → ∃ g, t.engines[j]? = some g ∧ g.st = f.st ∧ g.latch = f.latch

/-- R50, R228: two commands in progress on different engines commute: from every state of the invariant, the two turns
complete in either order and leave the same memory. The turns as events are the model's choice (assumption 5). -/
def Obligations.ConcurrentCommandsCommute : Prop :=
  ∀ (s : State) (e f : Nat) (rest : List Input) (engE engF : Engine), Consistent s → e ≠ f →
    s.engines[e]? = some engE → engE.st = .busy → s.engines[f]? = some engF → engF.st = .busy →
    ∃ t u t' u',
      step { s with inputs := .turn e :: .turn f :: rest } = .next t ∧ step t = .next u ∧
      step { s with inputs := .turn f :: .turn e :: rest } = .next t' ∧ step t' = .next u' ∧
      u.mem = u'.mem

/-- R256 (the latency is finite for every accepted command), R240: left to itself, a machine of the invariant
completes every accepted command: after as many steps as it has engines, every engine is `IDLE`. That it takes one
step for each, lowest number first, is the model's choice (assumption 8). -/
def Obligations.AcceptedCommandsDrain : Prop :=
  ∀ s : State, Consistent s → s.inputs = [] →
    ∃ t : State, core.run s.engines.length s = .next t ∧ (∀ e ∈ t.engines, e.st = .idle) ∧ Consistent t

/-- No step changes the parameters of 00_scope.md R5 or the number of engines (read from R5 by inference, assumption
9), and the events taken are the script's, in order (the model's choice, assumption 5). -/
def Obligations.StepKeepsParameters : Prop :=
  ∀ s t : State, step s = .next t →
    t.cfg = s.cfg ∧ t.engines.length = s.engines.length ∧ t.inputs = s.inputs.tail

/-- R21, R40 ("Every command reaches the pixel memory; nothing else does"), R51: a sample changes in a step only if it
is in the write set of a command in progress, or is the one the host writes (the event at the head of the script,
assumption 5). -/
def Obligations.MemoryChangesOnlyByCommandOrHost : Prop :=
  ∀ (s t : State) (a : Nat), step s = .next t → t.mem.read a ≠ s.mem.read a →
    (∃ e ∈ s.engines, ∃ c, e.command = some c ∧ ∃ b ∈ c.writeSet s.cfg.linesPerSegment, b.toNat = a) ∨
    (∃ v, s.inputs.head? = some (.hostWrite a v) ∧ t.mem.read a = v)

/-- R42: on a byte-addressed platform a sample in range for its depth takes one byte at 8 bits, and at 10 and 12 bits
two bytes, the less significant first, with the unused upper 6 or 4 bits zero. -/
def Obligations.ByteViewIsLittleEndian : Prop :=
  ∀ (m : Memory) (a : Nat),
    ((m.read a).toNat ≤ Depth.pmax .d8 → (m.byteAt .d8 a).toNat = (m.read a).toNat) ∧
    (∀ d, d ≠ .d8 → (m.read a).toNat ≤ d.pmax →
      (m.byteAt d (2 * a)).toNat + 256 * (m.byteAt d (2 * a + 1)).toNat = (m.read a).toNat ∧
      (m.byteAt d (2 * a + 1)).toNat < 2 ^ (d.bd - 8))

/-- R28: an engine goes from `IDLE` to `BUSY` only when the host presents it a descriptor that is accepted, and holds
that descriptor then (R26); it goes from `BUSY` to `IDLE` only by reset or by completing its command, with `done`
asserted, at its turn or with no event left (the turn and the script are the model's choice, assumption 5; the latter
order assumption 8); and while it stays `BUSY` its latch does not change. -/
def Obligations.StatusChangesByAcceptCompletionOrReset : Prop :=
  ∀ (s t : State), step s = .next t →
    ∀ (e : Nat) (before after : Engine), s.engines[e]? = some before → t.engines[e]? = some after →
      (before.st = .idle → after.st = .busy →
        ∃ d, s.inputs.head? = some (.issue e d) ∧ after.latch = d ∧ ∃ i, decode d = .ok i) ∧
      (before.st = .busy → after.st = .idle →
        s.inputs.head? = some .reset ∨
          (after.done = true ∧ (s.inputs.head? = some (.turn e) ∨ s.inputs = []))) ∧
      (before.st = .busy → after.st = .busy → after.latch = before.latch)
end

