-- ==== Sys2Proof/Laws/State.lean ====
section
/-! SUPPORT. One lemma per field per update of the machine and of an engine, true by `rfl`. -/

namespace Sys2Proof.Machine

@[simp] theorem start_st (e : Engine) (c : Cmd) : (e.start c).st = e.st := rfl
@[simp] theorem start_done (e : Engine) (c : Cmd) : (e.start c).done = e.done := rfl
@[simp] theorem start_latch (e : Engine) (c : Cmd) : (e.start c).latch = e.latch := rfl
@[simp] theorem start_thr0 (e : Engine) (c : Cmd) : (e.start c).thr0 = scaleThresholds c.depth c.par0 := rfl
@[simp] theorem start_thr1 (e : Engine) (c : Cmd) : (e.start c).thr1 = scaleThresholds c.depth c.par1 := rfl
@[simp] theorem start_scratch (e : Engine) (c : Cmd) : (e.start c).scratch = e.scratch := rfl
@[simp] theorem start_lines (e : Engine) (c : Cmd) : (e.start c).lines = e.lines := rfl

@[simp] theorem gather_st (e : Engine) (g : Config) (m : Memory) (c : Cmd) : (e.gather g m c).st = e.st := rfl
@[simp] theorem gather_done (e : Engine) (g : Config) (m : Memory) (c : Cmd) : (e.gather g m c).done = e.done := rfl
@[simp] theorem gather_latch (e : Engine) (g : Config) (m : Memory) (c : Cmd) : (e.gather g m c).latch = e.latch := rfl
@[simp] theorem gather_thr0 (e : Engine) (g : Config) (m : Memory) (c : Cmd) : (e.gather g m c).thr0 = e.thr0 := rfl
@[simp] theorem gather_thr1 (e : Engine) (g : Config) (m : Memory) (c : Cmd) : (e.gather g m c).thr1 = e.thr1 := rfl
@[simp] theorem gather_scratch (e : Engine) (g : Config) (m : Memory) (c : Cmd) : (e.gather g m c).scratch =
    (List.range (c.nLines g.linesPerSegment)).map fun n => (c.lineAddrs n).map m.sample := rfl
@[simp] theorem gather_lines (e : Engine) (g : Config) (m : Memory) (c : Cmd) : (e.gather g m c).lines =
    ((List.range (c.nLines g.linesPerSegment)).map fun n => (c.lineAddrs n).map m.sample).map (loadLine c.width) := rfl

@[simp] theorem compute_st (e : Engine) (g : Config) (c : Cmd) : (e.compute g c).st = e.st := rfl
@[simp] theorem compute_done (e : Engine) (g : Config) (c : Cmd) : (e.compute g c).done = e.done := rfl
@[simp] theorem compute_latch (e : Engine) (g : Config) (c : Cmd) : (e.compute g c).latch = e.latch := rfl
@[simp] theorem compute_thr0 (e : Engine) (g : Config) (c : Cmd) : (e.compute g c).thr0 = e.thr0 := rfl
@[simp] theorem compute_thr1 (e : Engine) (g : Config) (c : Cmd) : (e.compute g c).thr1 = e.thr1 := rfl
@[simp] theorem compute_scratch (e : Engine) (g : Config) (c : Cmd) : (e.compute g c).scratch = e.scratch := rfl

@[simp] theorem finish_st (e : Engine) : e.finish.st = .idle := rfl
@[simp] theorem finish_done (e : Engine) : e.finish.done = true := rfl
@[simp] theorem finish_latch (e : Engine) : e.finish.latch = e.latch := rfl
@[simp] theorem finish_thr0 (e : Engine) : e.finish.thr0 = e.thr0 := rfl
@[simp] theorem finish_thr1 (e : Engine) : e.finish.thr1 = e.thr1 := rfl
@[simp] theorem finish_scratch (e : Engine) : e.finish.scratch = e.scratch := rfl
@[simp] theorem finish_lines (e : Engine) : e.finish.lines = e.lines := rfl

@[simp] theorem work_st (e : Engine) (g : Config) (m : Memory) (c : Cmd) : (e.work g m c).st = e.st := rfl
@[simp] theorem work_done (e : Engine) (g : Config) (m : Memory) (c : Cmd) : (e.work g m c).done = e.done := rfl
@[simp] theorem work_latch (e : Engine) (g : Config) (m : Memory) (c : Cmd) : (e.work g m c).latch = e.latch := rfl

@[simp] theorem clearDone_cfg (s : State) : (clearDone s).cfg = s.cfg := rfl
@[simp] theorem clearDone_mem (s : State) : (clearDone s).mem = s.mem := rfl
@[simp] theorem clearDone_engines (s : State) :
    (clearDone s).engines = s.engines.map fun e => { e with done := false } := rfl
@[simp] theorem clearDone_cur (s : State) : (clearDone s).cur = s.cur := rfl
@[simp] theorem clearDone_inputs (s : State) : (clearDone s).inputs = s.inputs := rfl
@[simp] theorem clearDone_freeCtr (s : State) : (clearDone s).freeCtr = s.freeCtr := rfl

@[simp] theorem resetEvent_cfg (s : State) : (resetEvent s).cfg = s.cfg := rfl
@[simp] theorem resetEvent_mem (s : State) :
    (resetEvent s).mem = s.engines.foldl (abandon s.cfg s.freeCtr) s.mem := rfl
@[simp] theorem resetEvent_engines (s : State) : (resetEvent s).engines = s.engines.map fun _ => Engine.reset := rfl
@[simp] theorem resetEvent_cur (s : State) : (resetEvent s).cur = s.cur := rfl
@[simp] theorem resetEvent_inputs (s : State) : (resetEvent s).inputs = s.inputs := rfl
@[simp] theorem resetEvent_freeCtr (s : State) : (resetEvent s).freeCtr = s.freeCtr + 1 := rfl

@[simp] theorem placeWord_cfg (s : State) (nbits w : Nat) : (placeWord s nbits w).cfg = s.cfg := rfl
@[simp] theorem placeWord_mem (s : State) (nbits w : Nat) : (placeWord s nbits w).mem = s.mem := rfl
@[simp] theorem placeWord_cur (s : State) (nbits w : Nat) : (placeWord s nbits w).cur = s.cur := rfl
@[simp] theorem placeWord_inputs (s : State) (nbits w : Nat) :
    (placeWord s nbits w).inputs = .turn 0 :: s.inputs := rfl
@[simp] theorem placeWord_freeCtr (s : State) (nbits w : Nat) : (placeWord s nbits w).freeCtr = s.freeCtr := rfl

end Sys2Proof.Machine
end

