-- ==== Sys2Proof/Laws/Arith.lean ====
section
/-! SUPPORT. The arithmetic primitives at their three depths, and the range of the clamp. -/

namespace Sys2Proof

@[simp] theorem Depth.bias_d8 : Depth.bias .d8 = 128 := rfl
@[simp] theorem Depth.bias_d10 : Depth.bias .d10 = 512 := rfl
@[simp] theorem Depth.bias_d12 : Depth.bias .d12 = 2048 := rfl
@[simp] theorem Depth.smin_d8 : Depth.smin .d8 = -128 := rfl
@[simp] theorem Depth.smin_d10 : Depth.smin .d10 = -512 := rfl
@[simp] theorem Depth.smin_d12 : Depth.smin .d12 = -2048 := rfl
@[simp] theorem Depth.smax_d8 : Depth.smax .d8 = 127 := rfl
@[simp] theorem Depth.smax_d10 : Depth.smax .d10 = 511 := rfl
@[simp] theorem Depth.smax_d12 : Depth.smax .d12 = 2047 := rfl
@[simp] theorem Depth.pmax_d8 : Depth.pmax .d8 = 255 := rfl
@[simp] theorem Depth.pmax_d10 : Depth.pmax .d10 = 1023 := rfl
@[simp] theorem Depth.pmax_d12 : Depth.pmax .d12 = 4095 := rfl

@[simp] theorem Width.K_w4 : Width.K .w4 = 2 := rfl
@[simp] theorem Width.K_w6 : Width.K .w6 = 3 := rfl
@[simp] theorem Width.K_w8 : Width.K .w8 = 4 := rfl
@[simp] theorem Width.K_w14 : Width.K .w14 = 7 := rfl
@[simp] theorem Width.M_w4 : Width.M .w4 = 2 := rfl
@[simp] theorem Width.M_w6 : Width.M .w6 = 2 := rfl
@[simp] theorem Width.M_w8 : Width.M .w8 = 3 := rfl
@[simp] theorem Width.M_w14 : Width.M .w14 = 6 := rfl

namespace Machine

theorem asr_one (v : Int) : asr v 1 = v / 2 := rfl
theorem asr_three (v : Int) : asr v 3 = v / 8 := rfl
theorem asr_four (v : Int) : asr v 4 = v / 16 := rfl
theorem rnd_three (v : Int) : rnd v 3 = (v + 4) / 8 := rfl
theorem rnd_four (v : Int) : rnd v 4 = (v + 8) / 16 := rfl

theorem absdiff_nonneg (a b : Int) : 0 ≤ absdiff a b := Int.natCast_nonneg _

@[simp] theorem absdiff_self (a : Int) : absdiff a a = 0 := by simp [absdiff]

theorem absdiff_le_iff (a b t : Int) : absdiff a b ≤ t ↔ a - b ≤ t ∧ b - a ≤ t := by
  unfold absdiff; omega

theorem smin_le_smax (d : Depth) : d.smin ≤ d.smax := by cases d <;> decide

/-- The clamp always answers inside the signed range. -/
theorem clampBd_mem (d : Depth) (v : Int) : d.smin ≤ clampBd d v ∧ clampBd d v ≤ d.smax := by
  have := smin_le_smax d
  unfold clampBd
  omega

/-- Inside the signed range the clamp changes nothing. -/
theorem clampBd_of_mem {d : Depth} {v : Int} (h : d.smin ≤ v ∧ v ≤ d.smax) : clampBd d v = v := by
  unfold clampBd
  omega

/-- The signed range re-biased is the sample range (00_scope.md R8). -/
theorem bias_range (d : Depth) : d.smin + d.bias = 0 ∧ d.smax + d.bias = d.pmax := by cases d <;> decide

theorem px_nonneg (l : Side) (k : Nat) : 0 ≤ l.px k := Int.natCast_nonneg _

theorem px_map_range (f : Nat → Nat) {K k : Nat} (h : k < K) : Side.px ((List.range K).map f) k = (f k : Int) := by
  simp [Side.px, List.getD, h]

end Machine
end Sys2Proof
end

