-- ==== Sys2Proof/Laws/Memory.lean ====
section
/-! SUPPORT. The laws of the pixel memory: what a read gives after a write, that every operation keeps the canonical
form, and that canonical memories with equal reads are equal. -/

namespace Sys2Proof.Machine

@[simp] theorem Memory.read_nil (a : Nat) : Memory.read [] a = unlistedSample := rfl

@[simp] theorem Memory.read_cons (b : Nat) (v : Sample) (m : Memory) (a : Nat) :
    Memory.read ((b, v) :: m) a = if a = b then v else Memory.read m a := rfl

theorem Memory.read_head (c : Nat × Sample) (m : Memory) : Memory.read (c :: m) c.1 = c.2 := by
  obtain ⟨b, v⟩ := c
  simp

theorem Memory.read_erase (m : Memory) (a x : Nat) :
    (m.erase a).read x = if x = a then unlistedSample else m.read x := by
  induction m with
  | nil => simp [Memory.erase]
  | cons c m ih =>
    obtain ⟨b, v⟩ := c
    simp only [Memory.erase] at ih ⊢
    by_cases hb : b = a
    · simp only [hb, ne_eq, not_true_eq_false, decide_false, Bool.false_eq_true, not_false_eq_true,
        List.filter_cons_of_neg, ih, Memory.read_cons]
      split <;> rfl
    · simp only [ne_eq, hb, not_false_eq_true, decide_true, List.filter_cons_of_pos, Memory.read_cons, ih]
      split
      · rename_i h; subst h; simp [hb]
      · rfl

theorem Memory.read_insert (m : Memory) (a x : Nat) (v : Sample) (h : ∀ c ∈ m, c.1 ≠ a) :
    (m.insert a v).read x = if x = a then v else m.read x := by
  induction m with
  | nil => simp [Memory.insert]
  | cons c m ih =>
    obtain ⟨b, w⟩ := c
    have hb : b ≠ a := h (b, w) (by simp)
    have ih := ih fun c hc => h c (List.mem_cons_of_mem _ hc)
    simp only [Memory.insert]
    split
    · simp
    · simp only [Memory.read_cons, ih]
      split
      · rename_i h; subst h; simp [hb]
      · rfl

theorem Memory.mem_erase {m : Memory} {a : Nat} {c : Nat × Sample} : c ∈ m.erase a ↔ c ∈ m ∧ c.1 ≠ a := by
  simp [Memory.erase]

theorem Memory.mem_insert {m : Memory} {a : Nat} {v : Sample} {c : Nat × Sample} :
    c ∈ m.insert a v ↔ c = (a, v) ∨ c ∈ m := by
  induction m with
  | nil => simp [Memory.insert]
  | cons d m ih =>
    simp only [Memory.insert]
    split
    · simp
    · simp [ih, or_left_comm]

/-- The one law of reading after a write. -/
theorem Memory.read_write (m : Memory) (a x : Nat) (v : Sample) :
    (m.write a v).read x = if x = a then v else m.read x := by
  unfold Memory.write
  split
  · rename_i h; rw [Memory.read_erase, h]
  · rw [Memory.read_insert _ _ _ _ fun c hc => (Memory.mem_erase.mp hc).2, Memory.read_erase]
    split <;> simp_all

theorem Memory.wf_erase {m : Memory} (a : Nat) (h : m.wf) : (m.erase a).wf :=
  ⟨h.1.filter _, fun c hc => h.2 c (Memory.mem_erase.mp hc).1⟩

theorem Memory.wf_insert {m : Memory} {a : Nat} {v : Sample} (h : m.wf) (ha : ∀ c ∈ m, c.1 ≠ a)
    (hv : v ≠ unlistedSample) : (m.insert a v).wf := by
  refine ⟨?_, fun c hc => (Memory.mem_insert.mp hc).elim (fun e => e ▸ hv) (h.2 c)⟩
  obtain ⟨hs, -⟩ := h
  induction m with
  | nil => simp [Memory.insert]
  | cons d m ih =>
    have hd : d.1 ≠ a := ha d (by simp)
    obtain ⟨h1, h2⟩ := List.pairwise_cons.mp hs
    simp only [Memory.insert]
    split
    · rename_i hlt
      refine List.pairwise_cons.mpr ⟨fun c hc => ?_, hs⟩
      rcases List.mem_cons.mp hc with rfl | hc
      · exact hlt
      · exact lt_trans hlt (h1 c hc)
    · rename_i hlt
      refine List.pairwise_cons.mpr ⟨fun c hc => ?_, ih (fun c hc => ha c (List.mem_cons_of_mem _ hc)) h2⟩
      rcases Memory.mem_insert.mp hc with rfl | hc
      · show d.1 < a; omega
      · exact h1 c hc

/-- Writing a sample keeps the canonical form. -/
theorem Memory.wf_write {m : Memory} (a : Nat) (v : Sample) (h : m.wf) : (m.write a v).wf := by
  unfold Memory.write
  split
  · exact Memory.wf_erase a h
  · rename_i hv
    exact Memory.wf_insert (Memory.wf_erase a h) (fun c hc => (Memory.mem_erase.mp hc).2) hv

theorem Memory.mem_write {m : Memory} {a : Nat} {v : Sample} {c : Nat × Sample} (h : c ∈ m.write a v) :
    c.1 = a ∨ c ∈ m := by
  unfold Memory.write at h
  split at h
  · exact .inr (Memory.mem_erase.mp h).1
  · rcases Memory.mem_insert.mp h with rfl | h
    · exact .inl rfl
    · exact .inr (Memory.mem_erase.mp h).1

@[simp] theorem Memory.writeAll_nil (m : Memory) : m.writeAll [] = m := rfl

@[simp] theorem Memory.writeAll_cons (m : Memory) (w : Nat × Sample) (ws : List (Nat × Sample)) :
    m.writeAll (w :: ws) = (m.write w.1 w.2).writeAll ws := rfl

/-- A list of writes keeps the canonical form. -/
theorem Memory.wf_writeAll {m : Memory} (ws : List (Nat × Sample)) (h : m.wf) : (m.writeAll ws).wf := by
  induction ws generalizing m with
  | nil => exact h
  | cons w ws ih => exact ih (Memory.wf_write _ _ h)

theorem Memory.mem_writeAll {m : Memory} {ws : List (Nat × Sample)} {c : Nat × Sample} (h : c ∈ m.writeAll ws) :
    (∃ w ∈ ws, c.1 = w.1) ∨ c ∈ m := by
  induction ws generalizing m with
  | nil => exact .inr h
  | cons w ws ih =>
    rcases ih h with ⟨w', hw, e⟩ | h
    · exact .inl ⟨w', List.mem_cons_of_mem _ hw, e⟩
    · rcases Memory.mem_write h with e | h
      · exact .inl ⟨w, List.mem_cons_self, e⟩
      · exact .inr h

/-- An address no write of the list names reads as before. -/
theorem Memory.read_writeAll_of_not_mem (m : Memory) (ws : List (Nat × Sample)) (a : Nat) (h : ∀ w ∈ ws, w.1 ≠ a) :
    (m.writeAll ws).read a = m.read a := by
  induction ws generalizing m with
  | nil => rfl
  | cons w ws ih =>
    rw [Memory.writeAll_cons, ih _ fun w hw => h w (List.mem_cons_of_mem _ hw), Memory.read_write,
      if_neg (h w List.mem_cons_self).symm]

/-- An address written once reads as what was written. -/
theorem Memory.read_writeAll_of_mem (m : Memory) (ws : List (Nat × Sample)) (w : Nat × Sample) (hw : w ∈ ws)
    (hd : (ws.map Prod.fst).Nodup) : (m.writeAll ws).read w.1 = w.2 := by
  induction ws generalizing m with
  | nil => simp at hw
  | cons u ws ih =>
    obtain ⟨hu, hd⟩ := List.nodup_cons.mp hd
    rw [Memory.writeAll_cons]
    rcases List.mem_cons.mp hw with rfl | hw
    · rw [Memory.read_writeAll_of_not_mem _ _ _ fun x hx e => hu (List.mem_map.mpr ⟨x, hx, e⟩), Memory.read_write,
        if_pos rfl]
    · exact ih _ hw hd

theorem Memory.read_eq_of_lt {m : Memory} {a : Nat} (h : ∀ c ∈ m, a < c.1) : m.read a = unlistedSample := by
  induction m with
  | nil => rfl
  | cons c m ih =>
    have := h c List.mem_cons_self
    rw [show c = (c.1, c.2) from rfl, Memory.read_cons, if_neg (by omega),
      ih fun c hc => h c (List.mem_cons_of_mem _ hc)]

/-- Canonical memories are equal when they read alike. -/
theorem Memory.ext_read {m m' : Memory} (h : m.wf) (h' : m'.wf) (e : ∀ a, m.read a = m'.read a) : m = m' := by
  induction m generalizing m' with
  | nil =>
    cases m' with
    | nil => rfl
    | cons d m' =>
      have := e d.1
      rw [show d = (d.1, d.2) from rfl] at this
      simp only [Memory.read_nil, Memory.read_cons, if_true] at this
      exact absurd this.symm (h'.2 d List.mem_cons_self)
  | cons c m ih =>
    obtain ⟨hc, hm⟩ := List.pairwise_cons.mp h.1
    have wfm : Memory.wf m := ⟨hm, fun x hx => h.2 x (List.mem_cons_of_mem _ hx)⟩
    have rc : Memory.read (c :: m) c.1 = c.2 := Memory.read_head c m
    cases m' with
    | nil =>
      have := e c.1
      rw [rc] at this
      exact absurd this (h.2 c List.mem_cons_self)
    | cons d m' =>
      obtain ⟨hd, hm'⟩ := List.pairwise_cons.mp h'.1
      have wfm' : Memory.wf m' := ⟨hm', fun x hx => h'.2 x (List.mem_cons_of_mem _ hx)⟩
      have rd : Memory.read (d :: m') d.1 = d.2 := Memory.read_head d m'
      have hkey : c.1 = d.1 := by
        rcases Nat.lt_trichotomy c.1 d.1 with hlt | heq | hgt
        · have := e c.1
          rw [rc, Memory.read_eq_of_lt (m := d :: m') fun x hx => by
            rcases List.mem_cons.mp hx with rfl | hx
            · exact hlt
            · exact lt_trans hlt (hd x hx)] at this
          exact absurd this (h.2 c List.mem_cons_self)
        · exact heq
        · have := e d.1
          rw [rd, Memory.read_eq_of_lt (m := c :: m) fun x hx => by
            rcases List.mem_cons.mp hx with rfl | hx
            · exact hgt
            · exact lt_trans hgt (hc x hx)] at this
          exact absurd this.symm (h'.2 d List.mem_cons_self)
      have hval : c.2 = d.2 := by
        have := e c.1
        rwa [rc, hkey, rd] at this
      have hcd : c = d := Prod.ext hkey hval
      subst hcd
      congr 1
      refine ih wfm wfm' fun a => ?_
      have := e a
      rw [show c = (c.1, c.2) from rfl, Memory.read_cons, Memory.read_cons] at this
      by_cases ha : a = c.1
      · subst ha
        rw [Memory.read_eq_of_lt hc, Memory.read_eq_of_lt hd]
      · simpa [ha] using this

end Sys2Proof.Machine
end

