-- ==== Sys2Proof/Laws/Exec.lean ====
section
/-! SUPPORT. What executing a command can do, said once: every meaning is the common execution rule, the checks are the
caller contract, and the stores are the Blender's values at the write set. -/

namespace Sys2Proof.Machine

/-- Every meaning is R190 at the record its opcode stands for. -/
theorem exec_eq_runCommand (i : Instr) (s : State) : exec i s = runCommand i.cmd s := by cases i <;> rfl

theorem allDistinct_iff (l : List Int) : allDistinct l = true ↔ l.Nodup := by
  induction l with
  | nil => simp [allDistinct]
  | cons a l ih => simp [allDistinct, ih]

theorem inRange_iff (cfg : Config) (c : Cmd) :
    inRange cfg c = true ↔ ∀ a ∈ c.footprint cfg.linesPerSegment, 0 ≤ a ∧ a < cfg.memSamples := by
  simp [inRange]

theorem aliasFree_iff (cfg : Config) (c : Cmd) :
    aliasFree cfg c = true ↔ (c.footprint cfg.linesPerSegment).Nodup := allDistinct_iff _

theorem samplesInRange_iff (cfg : Config) (m : Memory) (c : Cmd) :
    samplesInRange cfg m c = true ↔ ∀ a ∈ c.footprint cfg.linesPerSegment, m.sample a ≤ c.depth.pmax := by
  simp [samplesInRange]

/-- The checks pass exactly inside the caller contract. -/
theorem checkCommand_eq_none_iff (cfg : Config) (m : Memory) (c : Cmd) :
    checkCommand cfg m c = none ↔ InContract cfg m c := by
  unfold checkCommand
  constructor
  · intro h
    split at h; · simp at h
    split at h; · simp at h
    split at h; · simp at h
    rename_i h1 h2 h3
    rw [Bool.not_eq_false] at h1 h2 h3
    exact ⟨(inRange_iff _ _).mp h1, (aliasFree_iff _ _).mp h2, (samplesInRange_iff _ _ _).mp h3⟩
  · rintro ⟨h1, h2, h3⟩
    simp [(inRange_iff _ _).mpr h1, (aliasFree_iff _ _).mpr h2, (samplesInRange_iff _ _ _).mpr h3]

/-- The registers of line `n` once computed. -/
def lineResult (cfg : Config) (m : Memory) (c : Cmd) (n : Nat) : LineRegs :=
  { p := gatheredP m c n, q := gatheredQ m c n, masks := lineMasks cfg m c n,
    oP := (List.range c.width.M).map fun k => (resultP cfg m c n k).toNat,
    oQ := (List.range c.width.M).map fun k => (resultQ cfg m c n k).toNat }

theorem loadLine_gathered (m : Memory) (c : Cmd) (n : Nat) :
    loadLine c.width ((c.lineAddrs n).map m.sample) =
      { p := gatheredP m c n, q := gatheredQ m c n,
        masks := { mask := false, hev := false, flat := false, flat2 := false }, oP := [], oQ := [] } := by
  simp [loadLine, Cmd.lineAddrs, gatheredP, gatheredQ, Function.comp_def]

/-- Gather and compute leave, in every engine, the same results: nothing of the engine's earlier registers enters. -/
theorem work_lines (e : Engine) (cfg : Config) (m : Memory) (c : Cmd) :
    (e.work cfg m c).lines = (List.range (c.nLines cfg.linesPerSegment)).map (lineResult cfg m c) := by
  apply List.ext_getElem
  · simp [Engine.work, Engine.compute]
  · intro n h1 h2
    simp only [Engine.work, Engine.compute, gather_lines, List.getElem_mapIdx, List.getElem_map, List.getElem_range,
      loadLine_gathered, gather_thr0, gather_thr1, start_thr0, start_thr1, filterLine, lineResult, resultP, resultQ,
      lineMasks, lineThresholds, segmentParams]
    split <;> rfl

/-- The writes of a command on memory `m`. -/
def commandStores (cfg : Config) (m : Memory) (c : Cmd) : List (Nat × Sample) :=
  (List.range (c.nLines cfg.linesPerSegment)).flatMap fun n =>
    (List.range c.width.M).map (fun k => ((c.addrP n k).toNat, BitVec.ofNat 16 (resultP cfg m c n k).toNat))
      ++ (List.range c.width.M).map (fun k => ((c.addrQ n k).toNat, BitVec.ofNat 16 (resultQ cfg m c n k).toNat))

theorem work_stores (e : Engine) (cfg : Config) (m : Memory) (c : Cmd) :
    (e.work cfg m c).stores c = commandStores cfg m c := by
  unfold Engine.stores commandStores
  rw [List.flatMap_def, work_lines]
  congr 1
  apply List.ext_getElem
  · simp
  · intro n h1 h2
    simp only [List.getElem_mapIdx, List.getElem_map, List.getElem_range, lineStores, lineResult]
    congr 1 <;>
    · apply List.map_congr_left
      intro k hk
      have := List.mem_range.mp hk
      simp [List.getD, this]

/-- The memory after a command. -/
def commandMemory (cfg : Config) (m : Memory) (c : Cmd) : Memory := m.writeAll (commandStores cfg m c)

/-- The state after a command run by engine `e`. -/
def commandState (c : Cmd) (s : State) (e : Engine) : State :=
  { s with mem := commandMemory s.cfg s.mem c, engines := s.engines.set s.cur (e.work s.cfg s.mem c).finish }

/-- Everything `runCommand` can do when it answers a next state. -/
theorem runCommand_eq_next_iff (c : Cmd) (s t : State) :
    runCommand c s = .next t ↔
      ∃ e, s.engines[s.cur]? = some e ∧ InContract s.cfg s.mem c ∧ t = commandState c s e := by
  unfold runCommand
  cases he : s.engines[s.cur]? with
  | none => simp
  | some e =>
    simp only [Option.some.injEq, exists_eq_left']
    rw [← checkCommand_eq_none_iff]
    cases checkCommand s.cfg s.mem c with
    | some r => simp
    | none =>
      simp only [Host.Outcome.next.injEq, true_and, work_stores]
      exact eq_comm

/-- A ready command completes. -/
theorem runCommand_of_ready {c : Cmd} {s : State} {e : Engine} (he : s.engines[s.cur]? = some e)
    (h : InContract s.cfg s.mem c) : runCommand c s = .next (commandState c s e) :=
  (runCommand_eq_next_iff c s _).mpr ⟨e, he, h, rfl⟩

/-- `runCommand` refuses exactly with the first violated check. -/
theorem runCommand_eq_refused_iff (c : Cmd) (s : State) (r : Refusal) :
    runCommand c s = .refused r ↔ s.cur < s.engines.length ∧ checkCommand s.cfg s.mem c = some r := by
  unfold runCommand
  cases he : s.engines[s.cur]? with
  | none => simpa using fun h => absurd h (by simpa using he)
  | some e =>
    have := (List.getElem?_eq_some_iff.mp he).1
    cases checkCommand s.cfg s.mem c <;> simp [this]

theorem Width.M_le_K (w : Width) : w.M ≤ w.K := by cases w <;> decide

theorem mem_writeSet {c : Cmd} {L : Nat} {a : Int} :
    a ∈ c.writeSet L ↔ ∃ n < c.nLines L, ∃ k < c.width.M, a = c.addrP n k ∨ a = c.addrQ n k := by
  simp only [Cmd.writeSet, Cmd.lineWrites, List.mem_flatMap, List.mem_range, List.mem_append, List.mem_map]
  constructor
  · rintro ⟨n, hn, ⟨k, hk, rfl⟩ | ⟨k, hk, rfl⟩⟩
    · exact ⟨n, hn, k, hk, .inl rfl⟩
    · exact ⟨n, hn, k, hk, .inr rfl⟩
  · rintro ⟨n, hn, k, hk, rfl | rfl⟩
    · exact ⟨n, hn, .inl ⟨k, hk, rfl⟩⟩
    · exact ⟨n, hn, .inr ⟨k, hk, rfl⟩⟩

theorem mem_footprint {c : Cmd} {L : Nat} {a : Int} :
    a ∈ c.footprint L ↔ ∃ n < c.nLines L, ∃ k < c.width.K, a = c.addrP n k ∨ a = c.addrQ n k := by
  simp only [Cmd.footprint, Cmd.lineAddrs, List.mem_flatMap, List.mem_range, List.mem_append, List.mem_map,
    List.mem_reverse]
  constructor
  · rintro ⟨n, hn, ⟨k, hk, rfl⟩ | ⟨k, hk, rfl⟩⟩
    · exact ⟨n, hn, k, hk, .inl rfl⟩
    · exact ⟨n, hn, k, hk, .inr rfl⟩
  · rintro ⟨n, hn, k, hk, rfl | rfl⟩
    · exact ⟨n, hn, .inl ⟨k, hk, rfl⟩⟩
    · exact ⟨n, hn, .inr ⟨k, hk, rfl⟩⟩

theorem commandStores_keys (cfg : Config) (m : Memory) (c : Cmd) :
    (commandStores cfg m c).map Prod.fst = (c.writeSet cfg.linesPerSegment).map Int.toNat := by
  simp [commandStores, Cmd.writeSet, Cmd.lineWrites, List.map_flatMap, Function.comp_def]

/-- Each line's writes are a part of its reads, so distinct reads make distinct writes. -/
theorem lineWrites_sublist_perm (c : Cmd) (n : Nat) :
    ∃ l : List Int, l.Perm (c.lineWrites n) ∧ l.Sublist (c.lineAddrs n) := by
  refine ⟨((List.range c.width.M).map (c.addrP n)).reverse ++ (List.range c.width.M).map (c.addrQ n),
    (List.reverse_perm _).append_right _, ?_⟩
  have h : (List.range c.width.M).Sublist (List.range c.width.K) := by
    rw [← Nat.add_sub_cancel' (Width.M_le_K c.width), List.range_add]
    exact List.sublist_append_left _ _
  exact ((h.map _).reverse).append (h.map _)

theorem writeSet_nodup {c : Cmd} {L : Nat} (h : (c.footprint L).Nodup) : (c.writeSet L).Nodup := by
  rw [Cmd.footprint, List.nodup_flatMap] at h
  rw [Cmd.writeSet, List.nodup_flatMap]
  refine ⟨fun n hn => ?_, h.2.imp fun {n n'} hd => ?_⟩
  · obtain ⟨l, hp, hs⟩ := lineWrites_sublist_perm c n
    exact hp.nodup_iff.mp ((h.1 n hn).sublist hs)
  · intro a ha ha'
    obtain ⟨l, hp, hs⟩ := lineWrites_sublist_perm c n
    obtain ⟨l', hp', hs'⟩ := lineWrites_sublist_perm c n'
    exact hd (hs.subset (hp.mem_iff.mpr ha)) (hs'.subset (hp'.mem_iff.mpr ha'))

theorem writeSet_subset_footprint {c : Cmd} {L : Nat} {a : Int} (h : a ∈ c.writeSet L) : a ∈ c.footprint L := by
  obtain ⟨n, hn, k, hk, e⟩ := mem_writeSet.mp h
  exact mem_footprint.mpr ⟨n, hn, k, lt_of_lt_of_le hk (Width.M_le_K _), e⟩

theorem commandStores_keys_nodup {cfg : Config} {m : Memory} {c : Cmd} (h : InContract cfg m c) :
    ((commandStores cfg m c).map Prod.fst).Nodup := by
  rw [commandStores_keys]
  refine (writeSet_nodup h.distinct).map_on fun a ha b hb e => ?_
  have := (h.inside a (writeSet_subset_footprint ha)).1
  have := (h.inside b (writeSet_subset_footprint hb)).1
  omega

/-- Outside the write set a command changes nothing. -/
theorem commandMemory_frame (cfg : Config) (m : Memory) (c : Cmd) (a : Nat)
    (h : ∀ b ∈ c.writeSet cfg.linesPerSegment, b.toNat ≠ a) : (commandMemory cfg m c).read a = m.read a := by
  refine Memory.read_writeAll_of_not_mem _ _ _ fun w hw e => ?_
  have : w.1 ∈ (commandStores cfg m c).map Prod.fst := List.mem_map_of_mem hw
  rw [commandStores_keys, List.mem_map] at this
  obtain ⟨b, hb, hbw⟩ := this
  exact h b hb (hbw.trans e)

/-- On the `p` side of a line a command leaves the Blender's values. -/
theorem commandMemory_p {cfg : Config} {m : Memory} {c : Cmd} (h : InContract cfg m c) {n k : Nat}
    (hn : n < c.nLines cfg.linesPerSegment) (hk : k < c.width.M) :
    (commandMemory cfg m c).read (c.addrP n k).toNat = BitVec.ofNat 16 (resultP cfg m c n k).toNat := by
  refine Memory.read_writeAll_of_mem m _ ((c.addrP n k).toNat, BitVec.ofNat 16 (resultP cfg m c n k).toNat) ?_
    (commandStores_keys_nodup h)
  simp only [commandStores, List.mem_flatMap, List.mem_range, List.mem_append, List.mem_map]
  exact ⟨n, hn, .inl ⟨k, hk, rfl⟩⟩

/-- On the `q` side of a line a command leaves the Blender's values. -/
theorem commandMemory_q {cfg : Config} {m : Memory} {c : Cmd} (h : InContract cfg m c) {n k : Nat}
    (hn : n < c.nLines cfg.linesPerSegment) (hk : k < c.width.M) :
    (commandMemory cfg m c).read (c.addrQ n k).toNat = BitVec.ofNat 16 (resultQ cfg m c n k).toNat := by
  refine Memory.read_writeAll_of_mem m _ ((c.addrQ n k).toNat, BitVec.ofNat 16 (resultQ cfg m c n k).toNat) ?_
    (commandStores_keys_nodup h)
  simp only [commandStores, List.mem_flatMap, List.mem_range, List.mem_append, List.mem_map]
  exact ⟨n, hn, .inr ⟨k, hk, rfl⟩⟩

/-- A command keeps the canonical form of the memory. -/
theorem commandMemory_wf {m : Memory} (cfg : Config) (c : Cmd) (h : m.wf) : (commandMemory cfg m c).wf :=
  Memory.wf_writeAll _ h

end Sys2Proof.Machine
end

