-- ==== Sys2Proof/Laws/PerInstr.lean ====
section
/-! SUPPORT. One family over the constructors of `Instr`: a well-formed command and the record its opcode stands for. -/

namespace Sys2Proof.Laws.CommandRecord

/-- The record of a well-formed command has every field in the range of its descriptor field, a single command's second
triple is zero (R71 (c)), and the opcode map gives the command back (R70). -/
def Statement (i : Instr) : Prop :=
  i.wf = true →
    baseWf i.cmd.base = true ∧ strideWf i.cmd.stride = true ∧ i.cmd.par0.wf = true ∧ i.cmd.par1.wf = true ∧
    (i.cmd.dual = false → i.cmd.par1 = { blimit := 0, limit := 0, thresh := 0 }) ∧
    instrOf i.cmd.dual i.cmd.orient i.cmd.width i.cmd.depth i.cmd.base i.cmd.stride i.cmd.par0 i.cmd.par1 = i

theorem single {w : Width} {o : Orient} {d : Depth} {base : Nat} {stride : Int} {p : Params}
    (h : singleWf base stride p = true) :
    baseWf (singleCmd w o d base stride p).base = true ∧ strideWf (singleCmd w o d base stride p).stride = true ∧
      (singleCmd w o d base stride p).par0.wf = true ∧ (singleCmd w o d base stride p).par1.wf = true := by
  simp only [singleWf, Bool.and_eq_true] at h
  exact ⟨h.1.1, h.1.2, h.2, rfl⟩

theorem dual {w : Width} {o : Orient} {d : Depth} {base : Nat} {stride : Int} {p q : Params}
    (h : dualWf base stride p q = true) :
    baseWf (dualCmd w o d base stride p q).base = true ∧ strideWf (dualCmd w o d base stride p q).stride = true ∧
      (dualCmd w o d base stride p q).par0.wf = true ∧ (dualCmd w o d base stride p q).par1.wf = true := by
  simp only [dualWf, singleWf, Bool.and_eq_true] at h
  exact ⟨h.1.1.1, h.1.1.2, h.1.2, h.2⟩

theorem lpfH4 (d : Depth) (base : Nat) (stride : Int) (p : Params) :
    Statement (.lpfH4 d base stride p) :=
  fun h => let ⟨a, b, c, e⟩ := single h; ⟨a, b, c, e, fun _ => rfl, rfl⟩

theorem lpfH6 (d : Depth) (base : Nat) (stride : Int) (p : Params) :
    Statement (.lpfH6 d base stride p) :=
  fun h => let ⟨a, b, c, e⟩ := single h; ⟨a, b, c, e, fun _ => rfl, rfl⟩

theorem lpfH8 (d : Depth) (base : Nat) (stride : Int) (p : Params) :
    Statement (.lpfH8 d base stride p) :=
  fun h => let ⟨a, b, c, e⟩ := single h; ⟨a, b, c, e, fun _ => rfl, rfl⟩

theorem lpfH14 (d : Depth) (base : Nat) (stride : Int) (p : Params) :
    Statement (.lpfH14 d base stride p) :=
  fun h => let ⟨a, b, c, e⟩ := single h; ⟨a, b, c, e, fun _ => rfl, rfl⟩

theorem lpfV4 (d : Depth) (base : Nat) (stride : Int) (p : Params) :
    Statement (.lpfV4 d base stride p) :=
  fun h => let ⟨a, b, c, e⟩ := single h; ⟨a, b, c, e, fun _ => rfl, rfl⟩

theorem lpfV6 (d : Depth) (base : Nat) (stride : Int) (p : Params) :
    Statement (.lpfV6 d base stride p) :=
  fun h => let ⟨a, b, c, e⟩ := single h; ⟨a, b, c, e, fun _ => rfl, rfl⟩

theorem lpfV8 (d : Depth) (base : Nat) (stride : Int) (p : Params) :
    Statement (.lpfV8 d base stride p) :=
  fun h => let ⟨a, b, c, e⟩ := single h; ⟨a, b, c, e, fun _ => rfl, rfl⟩

theorem lpfV14 (d : Depth) (base : Nat) (stride : Int) (p : Params) :
    Statement (.lpfV14 d base stride p) :=
  fun h => let ⟨a, b, c, e⟩ := single h; ⟨a, b, c, e, fun _ => rfl, rfl⟩

theorem lpfH4D (d : Depth) (base : Nat) (stride : Int) (p q : Params) :
    Statement (.lpfH4D d base stride p q) :=
  fun h => let ⟨a, b, c, e⟩ := dual h; ⟨a, b, c, e, fun h => (Bool.noConfusion h), rfl⟩

theorem lpfH6D (d : Depth) (base : Nat) (stride : Int) (p q : Params) :
    Statement (.lpfH6D d base stride p q) :=
  fun h => let ⟨a, b, c, e⟩ := dual h; ⟨a, b, c, e, fun h => (Bool.noConfusion h), rfl⟩

theorem lpfH8D (d : Depth) (base : Nat) (stride : Int) (p q : Params) :
    Statement (.lpfH8D d base stride p q) :=
  fun h => let ⟨a, b, c, e⟩ := dual h; ⟨a, b, c, e, fun h => (Bool.noConfusion h), rfl⟩

theorem lpfH14D (d : Depth) (base : Nat) (stride : Int) (p q : Params) :
    Statement (.lpfH14D d base stride p q) :=
  fun h => let ⟨a, b, c, e⟩ := dual h; ⟨a, b, c, e, fun h => (Bool.noConfusion h), rfl⟩

theorem lpfV4D (d : Depth) (base : Nat) (stride : Int) (p q : Params) :
    Statement (.lpfV4D d base stride p q) :=
  fun h => let ⟨a, b, c, e⟩ := dual h; ⟨a, b, c, e, fun h => (Bool.noConfusion h), rfl⟩

theorem lpfV6D (d : Depth) (base : Nat) (stride : Int) (p q : Params) :
    Statement (.lpfV6D d base stride p q) :=
  fun h => let ⟨a, b, c, e⟩ := dual h; ⟨a, b, c, e, fun h => (Bool.noConfusion h), rfl⟩

theorem lpfV8D (d : Depth) (base : Nat) (stride : Int) (p q : Params) :
    Statement (.lpfV8D d base stride p q) :=
  fun h => let ⟨a, b, c, e⟩ := dual h; ⟨a, b, c, e, fun h => (Bool.noConfusion h), rfl⟩

theorem lpfV14D (d : Depth) (base : Nat) (stride : Int) (p q : Params) :
    Statement (.lpfV14D d base stride p q) :=
  fun h => let ⟨a, b, c, e⟩ := dual h; ⟨a, b, c, e, fun h => (Bool.noConfusion h), rfl⟩

end Sys2Proof.Laws.CommandRecord
end

