-- ==== Sys2Proof/Laws/Step.lean ====
section
/-! SUPPORT. What one step can do, said once: each event's inversion, and the five things a step that answers a next
state has done. -/

namespace Sys2Proof.Machine

theorem command_of_idle {e : Engine} (h : e.st = .idle) : e.command = none := by simp [Engine.command, h]

theorem command_of_busy {e : Engine} {i : Instr} (h : e.st = .busy) (hi : decode e.latch = .ok i) :
    e.command = some i.cmd := by simp [Engine.command, h, hi]

theorem command_eq_some {e : Engine} {c : Cmd} (h : e.command = some c) :
    e.st = .busy ∧ ∃ i, decode e.latch = .ok i ∧ i.cmd = c := by
  unfold Engine.command at h
  split at h
  · simp at h
  · rename_i hs
    split at h
    · rename_i i hi
      exact ⟨hs, i, hi, by simpa using h⟩
    · simp at h

theorem command_congr {e f : Engine} (h : e.st = f.st) (h' : e.latch = f.latch) : e.command = f.command := by
  simp [Engine.command, h, h']

theorem held_congr {e f : Engine} (L : Nat) (h : e.st = f.st) (h' : e.latch = f.latch) : e.held L = f.held L := by
  simp [Engine.held, command_congr h h']

theorem held_of_command {e : Engine} {c : Cmd} (L : Nat) (h : e.command = some c) : e.held L = c.footprint L := by
  simp [Engine.held, h]

theorem held_of_idle {e : Engine} (L : Nat) (h : e.st = .idle) : e.held L = [] := by
  simp [Engine.held, command_of_idle h]

theorem heldBySome_eq_false_iff (s : State) (a : Int) :
    heldBySome s a = false ↔ ∀ e ∈ s.engines, a ∉ e.held s.cfg.linesPerSegment := by
  simp [heldBySome]

/-- A turn of an engine: an `IDLE` engine does nothing, a `BUSY` one runs the command in its latch. -/
theorem engineTurn_eq_next_iff (e : Nat) (s t : State) :
    engineTurn e s = .next t ↔
      ∃ eng, s.engines[e]? = some eng ∧
        ((eng.st = .idle ∧ t = s) ∨
          ∃ c, eng.command = some c ∧ InContract s.cfg s.mem c ∧ t = commandState c { s with cur := e } eng) := by
  unfold engineTurn
  cases he : s.engines[e]? with
  | none => simp
  | some eng =>
    simp only [Option.some.injEq, exists_eq_left']
    cases hs : eng.st with
    | idle =>
      simp only [Host.Outcome.next.injEq, true_and, command_of_idle hs, reduceCtorEq, false_and, exists_false, or_false]
      exact eq_comm
    | busy =>
      cases hd : decode eng.latch with
      | error r => simp [Engine.command, hs, hd]
      | ok i =>
        simp only [exec_eq_runCommand, runCommand_eq_next_iff, he, Option.some.injEq, exists_eq_left',
          command_of_busy hs hd, reduceCtorEq, false_and, false_or]

/-- An accepted command. -/
theorem issue_eq_next_iff (e : Nat) (d : Descriptor) (s t : State) :
    issue e d s = .next t ↔
      ∃ eng i, s.engines[e]? = some eng ∧ eng.st = .idle ∧ decode d = .ok i ∧ InContract s.cfg s.mem i.cmd ∧
        (∀ a ∈ i.cmd.footprint s.cfg.linesPerSegment, heldBySome s a = false) ∧
        t = { s with engines := s.engines.set e { eng with st := .busy, latch := d } } := by
  unfold issue
  cases he : s.engines[e]? with
  | none => simp
  | some eng =>
    by_cases hs : eng.st = .idle
    · simp only [Option.some.injEq, Engine.cmdReady, hs, decide_true, Bool.true_eq_false, if_false]
      cases hd : decode d with
      | error r => simp
      | ok i =>
        simp only [Except.ok.injEq]
        cases hc : checkCommand s.cfg s.mem i.cmd with
        | some r =>
          simp only [reduceCtorEq, false_iff]
          rintro ⟨_, j, rfl, -, rfl, hj, -⟩
          rw [(checkCommand_eq_none_iff _ _ _).mpr hj] at hc
          cases hc
        | none =>
          have hin := (checkCommand_eq_none_iff _ _ _).mp hc
          cases hany : (i.cmd.footprint s.cfg.linesPerSegment).any (heldBySome s) with
          | true =>
            obtain ⟨a, ha, hb⟩ := List.any_eq_true.mp hany
            simp only [if_true, reduceCtorEq, false_iff]
            rintro ⟨_, j, rfl, -, rfl, -, hf, -⟩
            rw [hf a ha] at hb
            cases hb
          | false =>
            simp only [Bool.false_eq_true, if_false, Host.Outcome.next.injEq]
            constructor
            · rintro rfl
              exact ⟨eng, i, rfl, hs, rfl, hin, fun a ha => by simpa using List.any_eq_false.mp hany a ha, rfl⟩
            · rintro ⟨_, j, rfl, -, -, -, -, rfl⟩
              rfl
    · simp only [Option.some.injEq, Engine.cmdReady, hs, decide_false, if_true, reduceCtorEq, false_iff]
      rintro ⟨_, j, rfl, h, -⟩
      exact hs h

theorem hostAccess_eq_next_iff (a : Nat) (s s' t : State) :
    hostAccess a s s' = .next t ↔ a < s.cfg.memSamples ∧ heldBySome s a = false ∧ t = s' := by
  unfold hostAccess
  split
  · simp; omega
  · rename_i ha
    split
    · rename_i hh; simp [hh]
    · rename_i hh
      simp only [Host.Outcome.next.injEq, Bool.not_eq_true _ ▸ hh, true_and, Nat.lt_of_not_le ha]
      exact eq_comm

theorem firstBusy_eq_some {es : List Engine} {e : Nat} (h : firstBusy es = some e) :
    ∃ eng, es[e]? = some eng ∧ eng.st = .busy := by
  induction es generalizing e with
  | nil => simp [firstBusy] at h
  | cons x es ih =>
    unfold firstBusy at h
    split at h
    · rename_i hx
      cases h
      exact ⟨x, rfl, hx⟩
    · obtain ⟨e', he', rfl⟩ := Option.map_eq_some_iff.mp h
      simpa using ih he'

/-- The machine as the next event finds it: that event taken off the script and every `done` deasserted. -/
def eventState (s : State) : State := clearDone { s with inputs := s.inputs.tail }

@[simp] theorem eventState_cfg (s : State) : (eventState s).cfg = s.cfg := rfl
@[simp] theorem eventState_mem (s : State) : (eventState s).mem = s.mem := rfl
@[simp] theorem eventState_cur (s : State) : (eventState s).cur = s.cur := rfl
@[simp] theorem eventState_inputs (s : State) : (eventState s).inputs = s.inputs.tail := rfl
@[simp] theorem eventState_freeCtr (s : State) : (eventState s).freeCtr = s.freeCtr := rfl
@[simp] theorem eventState_engines (s : State) :
    (eventState s).engines = s.engines.map fun e => { e with done := false } := rfl

/-- The five things a step that answers a next state has done: nothing but take its event, complete a command, accept
one, write a sample for the host, or reset; the last four with the event that was taken. -/
theorem step_cases {s t : State} (h : step s = .next t) :
    t = eventState s ∨
    (∃ e eng c, (eventState s).engines[e]? = some eng ∧ eng.command = some c ∧ InContract s.cfg s.mem c ∧
      t = commandState c { eventState s with cur := e } eng ∧ (s.inputs.head? = some (.turn e) ∨ s.inputs = [])) ∨
    (∃ e d eng i, s.inputs.head? = some (.issue e d) ∧ (eventState s).engines[e]? = some eng ∧ eng.st = .idle ∧ decode d = .ok i ∧
      InContract s.cfg s.mem i.cmd ∧
      (∀ a ∈ i.cmd.footprint s.cfg.linesPerSegment, heldBySome (eventState s) a = false) ∧
      t = { eventState s with engines := (eventState s).engines.set e { eng with st := .busy, latch := d } }) ∨
    (∃ a v, s.inputs.head? = some (.hostWrite a v) ∧ a < s.cfg.memSamples ∧ heldBySome (eventState s) a = false ∧
      t = { eventState s with mem := s.mem.write a v }) ∨
    (s.inputs.head? = some .reset ∧ t = resetEvent (eventState s)) := by
  have turn : ∀ e, (s.inputs.head? = some (.turn e) ∨ s.inputs = []) → engineTurn e (eventState s) = .next t →
      t = eventState s ∨ (∃ e eng c, (eventState s).engines[e]? = some eng ∧ eng.command = some c ∧
        InContract s.cfg s.mem c ∧ t = commandState c { eventState s with cur := e } eng ∧
        (s.inputs.head? = some (.turn e) ∨ s.inputs = [])) := by
    intro e hin he
    obtain ⟨eng, hg, ⟨-, ht⟩ | ⟨c, hc, hi, ht⟩⟩ := (engineTurn_eq_next_iff _ _ _).mp he
    · exact .inl ht
    · exact .inr ⟨e, eng, c, hg, hc, hi, ht, hin⟩
  unfold step nextEvent at h
  cases hin : s.inputs with
  | nil =>
    have hs : clearDone s = eventState s := by
      obtain ⟨cfg, mem, engines, cur, inputs, freeCtr⟩ := s
      cases hin
      rfl
    rw [hin] at h
    simp only [hs, idleStep] at h
    split at h
    · exact .inl (by simpa using h.symm)
    · rcases turn _ (.inr hin) h with h | h
      · exact .inl h
      · exact .inr (.inl (by rwa [hin] at h))
  | cons i rest =>
    have hs : clearDone { s with inputs := rest } = eventState s := by simp [eventState, hin]
    rw [hin] at h
    simp only [hs] at h
    cases i with
    | issue e d =>
      obtain ⟨eng, i, h⟩ := (issue_eq_next_iff e d (eventState s) t).mp h
      exact .inr (.inr (.inl ⟨e, d, eng, i, rfl, h⟩))
    | turn e =>
      rcases turn e (.inl (by simp [hin])) h with h | h
      · exact .inl h
      · exact .inr (.inl (by rwa [hin] at h))
    | hostRead a => exact .inl ((hostAccess_eq_next_iff a (eventState s) (eventState s) t).mp h).2.2
    | hostWrite a v =>
      obtain ⟨ha, hh, ht⟩ :=
        (hostAccess_eq_next_iff a (eventState s) { eventState s with mem := s.mem.write a v } t).mp h
      exact .inr (.inr (.inr (.inl ⟨a, v, rfl, ha, hh, ht⟩)))
    | reset => exact .inr (.inr (.inr (.inr ⟨rfl, by simpa [stepInput] using h.symm⟩)))

end Sys2Proof.Machine
end

