-- ==== Sys2Proof/Tests/Slice0.lean ====
section
/-! SUPPORT. The model's own tests. Expected values come from the spec's worked examples and vectors, named at each
test; the witnesses at the end show, for each statement with hypotheses, a state and operands that meet them. -/

namespace Sys2Proof.Tests

open Sys2Proof Sys2Proof.Machine

set_option maxRecDepth 20000

/-! ### Well-formedness: one ill-formed term for each check -/

/-- The triple most examples of the spec use. -/
def par : Params := { blimit := 40, limit := 20, thresh := 3 }

theorem test_wf_accepts_extremes :
    (Instr.lpfV14D .d12 (2 ^ 32 - 1) (-(2 ^ 31)) ⟨255, 255, 255⟩ ⟨255, 255, 255⟩).wf = true ∧
    (Instr.lpfH4 .d8 0 (2 ^ 31 - 1) ⟨0, 0, 0⟩).wf = true := by decide

theorem test_wf_refuses_base : (Instr.lpfH4 .d8 (2 ^ 32) 16 par).wf = false := by decide
theorem test_wf_refuses_stride_high : (Instr.lpfH6 .d8 116 (2 ^ 31) par).wf = false := by decide
theorem test_wf_refuses_stride_low : (Instr.lpfV8 .d8 116 (-(2 ^ 31) - 1) par).wf = false := by decide
theorem test_wf_refuses_blimit : (Instr.lpfH14 .d8 116 16 { par with blimit := 256 }).wf = false := by decide
theorem test_wf_refuses_limit : (Instr.lpfV4 .d8 116 16 { par with limit := 256 }).wf = false := by decide
theorem test_wf_refuses_thresh : (Instr.lpfV6 .d8 116 16 { par with thresh := 256 }).wf = false := by decide
theorem test_wf_refuses_dual_base : (Instr.lpfH4D .d8 (2 ^ 32) 16 par par).wf = false := by decide
theorem test_wf_refuses_dual_stride : (Instr.lpfH6D .d8 116 (2 ^ 31) par par).wf = false := by decide
theorem test_wf_refuses_dual_first : (Instr.lpfH8D .d8 116 16 { par with limit := 256 } par).wf = false := by decide
theorem test_wf_refuses_dual_blimit : (Instr.lpfV4D .d8 116 16 par { par with blimit := 256 }).wf = false := by decide
theorem test_wf_refuses_dual_limit : (Instr.lpfV6D .d8 116 16 par { par with limit := 256 }).wf = false := by decide
theorem test_wf_refuses_dual_thresh : (Instr.lpfV8D .d8 116 16 par { par with thresh := 256 }).wf = false := by decide

/-! ### Decoding: the words of 46_commands.md R192 to R207, one for each constructor -/

theorem test_decode_horizontal_single :
    decode (ofWords 0x14280000 0x00000003 0x00000010 0x00000074) = .ok (.lpfH4 .d8 116 16 ⟨40, 20, 3⟩) ∧
    decode (ofWords 0x14280001 0x00000003 0x00000010 0x00000074) = .ok (.lpfH6 .d8 116 16 ⟨40, 20, 3⟩) ∧
    decode (ofWords 0x14280002 0x00000003 0x00000010 0x00000074) = .ok (.lpfH8 .d8 116 16 ⟨40, 20, 3⟩) ∧
    decode (ofWords 0x14280003 0x00000003 0x00000010 0x00000074) = .ok (.lpfH14 .d8 116 16 ⟨40, 20, 3⟩) := by decide

theorem test_decode_vertical_single :
    decode (ofWords 0x14280004 0x00000003 0x00000010 0x00000008) = .ok (.lpfV4 .d8 8 16 ⟨40, 20, 3⟩) ∧
    decode (ofWords 0x14280005 0x00000003 0x00000010 0x00000008) = .ok (.lpfV6 .d8 8 16 ⟨40, 20, 3⟩) ∧
    decode (ofWords 0x14280006 0x00000003 0x00000010 0x00000008) = .ok (.lpfV8 .d8 8 16 ⟨40, 20, 3⟩) ∧
    decode (ofWords 0x14280007 0x00000003 0x00000010 0x00000008) = .ok (.lpfV14 .d8 8 16 ⟨40, 20, 3⟩) := by decide

theorem test_decode_horizontal_dual :
    decode (ofWords 0x14280008 0x01141403 0x00000010 0x00000074) =
      .ok (.lpfH4D .d8 116 16 ⟨40, 20, 3⟩ ⟨20, 20, 1⟩) ∧
    decode (ofWords 0x14280009 0x03141803 0x00000010 0x00000074) =
      .ok (.lpfH6D .d8 116 16 ⟨40, 20, 3⟩ ⟨24, 20, 3⟩) ∧
    decode (ofWords 0x1428000A 0x03141803 0x00000010 0x00000074) =
      .ok (.lpfH8D .d8 116 16 ⟨40, 20, 3⟩ ⟨24, 20, 3⟩) ∧
    decode (ofWords 0x1428000B 0x03141803 0x00000010 0x00000074) =
      .ok (.lpfH14D .d8 116 16 ⟨40, 20, 3⟩ ⟨24, 20, 3⟩) := by decide

theorem test_decode_vertical_dual :
    decode (ofWords 0x1428000C 0x01141403 0x00000010 0x00000008) =
      .ok (.lpfV4D .d8 8 16 ⟨40, 20, 3⟩ ⟨20, 20, 1⟩) ∧
    decode (ofWords 0x1428000D 0x03141803 0x00000010 0x00000008) =
      .ok (.lpfV6D .d8 8 16 ⟨40, 20, 3⟩ ⟨24, 20, 3⟩) ∧
    decode (ofWords 0x1428000E 0x03141803 0x00000010 0x00000008) =
      .ok (.lpfV8D .d8 8 16 ⟨40, 20, 3⟩ ⟨24, 20, 3⟩) ∧
    decode (ofWords 0x1428000F 0x03141803 0x00000010 0x00000008) =
      .ok (.lpfV14D .d8 8 16 ⟨40, 20, 3⟩ ⟨24, 20, 3⟩) := by decide

/-- The field table of 30_encoding.md R62 bit by bit, most significant first: `BASE = 0x200`, `STRIDE = -4`,
`THRESH1 = 3`, `LIMIT1 = 9`, `BLIMIT1 = 24`, `THRESH0 = 2`, `LIMIT0 = 8`, `BLIMIT0 = 20`, `RSV0 = 0`, `DEPTH = 10`
(12 bits), `DUAL = 1`, `ORIENT = 1`, `WIDTH = 10` (8). -/
theorem test_decode_bit_by_bit :
    decode (0b00000000000000000000001000000000#32 ++ 0b11111111111111111111111111111100#32 ++ 0b00000011#8 ++
      0b00001001#8 ++ 0b00011000#8 ++ 0b00000010#8 ++ 0b00001000#8 ++ 0b00010100#8 ++ 0b0000000000#10 ++ 0b10#2 ++
      0b1#1 ++ 0b1#1 ++ 0b10#2) = .ok (.lpfV8D .d12 0x200 (-4) ⟨20, 8, 2⟩ ⟨24, 9, 3⟩) := by decide

/-- 95_test_vectors.md P2 (10 bits), D12 (12 bits) and NS (negative stride). -/
theorem test_decode_depths_and_negative_stride :
    decode (ofWords 0x143C001B 0x01040804 0x00000008 0x00000038) = .ok (.lpfH14D .d10 56 8 ⟨60, 20, 4⟩ ⟨8, 4, 1⟩) ∧
    decode (ofWords 0x1428002D 0x03141803 0x00000006 0x00000003) =
      .ok (.lpfV6D .d12 3 6 ⟨40, 20, 3⟩ ⟨24, 20, 3⟩) ∧
    decode (ofWords 0x14280000 0x00000003 0xFFFFFFFC 0x00000004) = .ok (.lpfH4 .d8 4 (-4) ⟨40, 20, 3⟩) := by decide

/-- 95_test_vectors.md P3 e, f, g; the last word has all three faults, reported in R73's order. -/
theorem test_decode_refuses_reserved :
    decode (ofWords 0x14280030 0x00000003 0x00000010 0x00000024) = .error .depth ∧
    decode (ofWords 0x14280000 0x00010003 0x00000010 0x00000024) = .error .params ∧
    decode (ofWords 0x14280040 0x00000003 0x00000010 0x00000024) = .error .bits ∧
    decode (ofWords 0x14280070 0x00010003 0x00000010 0x00000024) = .error .bits := by decide

/-- 30_encoding.md R74's descriptor, and the row numbering of the opcode table. -/
theorem test_encode_and_table_word :
    encode (.lpfV8D .d10 0x200 64 ⟨20, 8, 2⟩ ⟨24, 9, 3⟩) = ofWords 0x0814001E 0x03091802 0x00000040 0x00000200 ∧
    decodeTableWord 128 0x00000074000000100000000314280001 = some (.lpfH6 .d8 116 16 ⟨40, 20, 3⟩) ∧
    decodeTableWord 128 0x00000074000000100000000314280031 = none := by decide

/-! ### Commands: each command's own example -/

/-- A memory that holds samples `vs` at addresses `as`. -/
def pixels (as vs : List Nat) : Memory := Memory.writeAll [] ((as.zip vs).map fun c => (c.1, BitVec.ofNat 16 c.2))

/-- A machine with that memory and one `IDLE` engine. -/
def world (as vs : List Nat) : State := { State.reset with mem := pixels as vs }

/-- A machine whose memory is exactly a picture, row after row. -/
def picture (vs : List Nat) : State :=
  { State.reset with
    cfg := { Config.default with memSamples := vs.length }, mem := pixels (List.range vs.length) vs }

/-- The samples at `as` after a command, `none` if it stopped. -/
def after (o : Host.Outcome State Fault Refusal) (as : List Nat) : Option (List Nat) :=
  match o with
  | .next s => some (as.map fun a => (s.mem.read a).toNat)
  | .fault _ => none
  | .refused _ => none

/-- Whether a command answers a next state. -/
def completes (o : Host.Outcome State Fault Refusal) : Bool := (after o []).isSome

/-- Why a command was refused. -/
def refusal (o : Host.Outcome State Fault Refusal) : Option Refusal :=
  match o with
  | .next _ => none
  | .fault _ => none
  | .refused r => some r

/-- Where line 1 of the horizontal examples lies, and the other lines R192 to R203 name. -/
def lineH4 : List Nat := [85, 101, 117, 133]
def lineH6 : List Nat := [71, 87, 103, 119, 135, 151]
def lineH8 : List Nat := [53, 69, 85, 101, 117, 133, 149, 165]
def lineH14 : List Nat := [5, 21, 37, 53, 69, 85, 101, 117, 133, 149, 165, 181, 197, 213]

/-- The lines M4-2, W6-4, W8-2, W14-2 of 95_test_vectors.md, outermost `p` first. -/
def m42 : List Nat := [100, 110, 120, 125]
def w64 : List Nat := [10, 15, 10, 12, 12, 12]
def w82 : List Nat := [16, 14, 12, 10, 20, 22, 24, 26]
def w142 : List Nat := [16, 13, 11, 10, 10, 10, 10, 20, 20, 20, 20, 21, 24, 28]
def w141 : List Nat := [10, 10, 10, 10, 10, 10, 10, 20, 20, 20, 20, 20, 20, 20]

/-- R192. -/
theorem test_h4 : after (exec (.lpfH4 .d8 116 16 par) (world lineH4 m42)) lineH4 = some [100, 111, 119, 125] := by
  decide +kernel

/-- R193. -/
theorem test_h6 : after (exec (.lpfH6 .d8 116 16 par) (world lineH6 w64)) lineH6 = some [10, 12, 12, 12, 12, 12] := by
  decide +kernel

/-- R194. -/
theorem test_h8 :
    after (exec (.lpfH8 .d8 116 16 par) (world lineH8 w82)) lineH8 = some [16, 14, 14, 14, 16, 20, 24, 26] := by
  decide +kernel

/-- R195. -/
theorem test_h14 :
    after (exec (.lpfH14 .d8 116 16 par) (world lineH14 w142)) lineH14 =
      some [16, 13, 11, 10, 11, 13, 14, 16, 18, 19, 20, 21, 24, 28] := by decide +kernel

/-- R196. -/
theorem test_v4 :
    after (exec (.lpfV4 .d8 8 16 par) (world [22, 23, 24, 25] m42)) [22, 23, 24, 25] =
      some [100, 111, 119, 125] := by decide +kernel

/-- R197. -/
theorem test_v6 :
    after (exec (.lpfV6 .d8 8 16 par) (world [53, 54, 55, 56, 57, 58] w64)) [53, 54, 55, 56, 57, 58] =
      some [10, 12, 12, 12, 12, 12] := by decide +kernel

/-- 95_test_vectors.md T8: the lines W8-1 to W8-4 as four rows. -/
theorem test_v8 :
    after (exec (.lpfV8 .d8 4 8 par)
      (picture [10, 10, 10, 10, 20, 20, 20, 20, 16, 14, 12, 10, 20, 22, 24, 26,
        10, 10, 10, 10, 60, 60, 60, 60, 12, 10, 10, 10, 14, 14, 13, 13])) (List.range 32) =
      some [10, 11, 13, 14, 16, 18, 19, 20, 16, 14, 14, 14, 16, 20, 24, 26,
        10, 10, 10, 10, 60, 60, 60, 60, 12, 10, 11, 11, 12, 13, 13, 13] := by decide +kernel

/-- R199 at line 1, W14-1 (13-tap) at line 2. -/
theorem test_v14 :
    after (exec (.lpfV14 .d8 8 16 par) (world (List.range' 17 14 ++ List.range' 33 14) (w142 ++ w141)))
      (List.range' 17 14 ++ List.range' 33 14) =
      some ([16, 13, 11, 10, 11, 13, 14, 16, 18, 19, 20, 21, 24, 28] ++
        [10, 11, 11, 12, 13, 13, 14, 16, 17, 18, 18, 19, 19, 20]) := by decide +kernel

/-- R200: the same samples under triple 0 (line 1) and triple 1 (line 5). -/
theorem test_h4d :
    after (exec (.lpfH4D .d8 116 16 par ⟨20, 20, 1⟩) (world (lineH4 ++ [89, 105, 121, 137]) (m42 ++ m42)))
      (lineH4 ++ [89, 105, 121, 137]) = some ([100, 111, 119, 125] ++ m42) := by decide +kernel

/-- R201: line 7. -/
theorem test_h6d :
    after (exec (.lpfH6D .d8 116 16 par ⟨24, 20, 3⟩) (world [75, 91, 107, 123, 139, 155] w64))
      [75, 91, 107, 123, 139, 155] = some [10, 12, 12, 12, 12, 12] := by decide +kernel

/-- R202: line 5, and the same samples under triple 0 in line 1. -/
theorem test_h8d :
    after (exec (.lpfH8D .d8 116 16 par ⟨24, 20, 3⟩)
      (world (lineH8 ++ [57, 73, 89, 105, 121, 137, 153, 169]) (w82 ++ w82)))
      (lineH8 ++ [57, 73, 89, 105, 121, 137, 153, 169]) = some ([16, 14, 14, 14, 16, 20, 24, 26] ++ w82) := by
  decide +kernel

/-- 95_test_vectors.md P2a, 10 bits: rows 5 to 8 after the command. -/
theorem test_h14d :
    after (exec (.lpfH14D .d10 56 8 ⟨60, 20, 4⟩ ⟨8, 4, 1⟩)
      (picture ([400, 405, 392, 400, 400, 405, 392, 400, 400, 400, 400, 400, 400, 400, 400, 400] ++
        [400, 400, 408, 400, 400, 400, 408, 400, 400, 400, 416, 400, 400, 400, 416, 400] ++
        [400, 400, 424, 400, 400, 400, 424, 400, 400, 400, 432, 400, 400, 400, 432, 400] ++
        [400, 400, 440, 400, 400, 400, 440, 400, 416, 416, 460, 600, 416, 416, 460, 600] ++
        [416, 416, 468, 600, 416, 416, 468, 600, 416, 416, 476, 600, 416, 416, 476, 600] ++
        [416, 416, 484, 600, 416, 416, 484, 600, 416, 416, 492, 600, 416, 416, 492, 600] ++
        [416, 416, 500, 600, 416, 416, 500, 600, 416, 411, 508, 600, 416, 411, 508, 600])))
      (List.range' 40 32) =
      some [405, 404, 436, 400, 400, 400, 432, 400, 407, 406, 447, 400, 400, 400, 440, 400,
        409, 410, 452, 600, 416, 416, 460, 600, 411, 412, 464, 600, 416, 416, 468, 600] := by decide +kernel

/-- R204: line 5 under triple 1; under triple 0 (line 1, R196) the same samples change. -/
theorem test_v4d :
    after (exec (.lpfV4D .d8 8 16 par ⟨20, 20, 1⟩) (world [22, 23, 24, 25, 86, 87, 88, 89] (m42 ++ m42)))
      [22, 23, 24, 25, 86, 87, 88, 89] = some ([100, 111, 119, 125] ++ m42) := by decide +kernel

/-- 95_test_vectors.md D12: 12 bits, both segments. -/
theorem test_v6d :
    after (exec (.lpfV6D .d12 3 6 par ⟨24, 20, 3⟩)
      (picture [160, 160, 160, 320, 320, 320, 224, 192, 160, 320, 352, 400, 160, 160, 160, 960, 960, 960,
        160, 240, 160, 192, 192, 192, 160, 160, 160, 320, 320, 320, 224, 192, 160, 320, 352, 400,
        160, 160, 160, 960, 960, 960, 160, 240, 160, 192, 192, 192])) (List.range 48) =
      some [160, 180, 220, 260, 300, 320, 224, 222, 220, 260, 322, 400, 160, 160, 160, 960, 960, 960,
        160, 184, 192, 190, 188, 192, 160, 160, 160, 320, 320, 320, 224, 192, 160, 320, 352, 400,
        160, 160, 160, 960, 960, 960, 160, 184, 192, 190, 188, 192] := by decide +kernel

/-- R206: line 5. -/
theorem test_v8d :
    after (exec (.lpfV8D .d8 8 16 par ⟨24, 20, 3⟩) (world (List.range' 84 8) w82)) (List.range' 84 8) = some w82 := by
  decide +kernel

/-- R207: line 4. -/
theorem test_v14d :
    after (exec (.lpfV14D .d8 8 16 par ⟨24, 20, 3⟩) (world (List.range' 65 14) w141)) (List.range' 65 14) =
      some w141 := by decide +kernel

/-- 95_test_vectors.md NS: a negative stride exchanges the sides; column 3 tells them apart. -/
theorem test_negative_stride :
    let s := picture [100, 100, 118, 126, 120, 110, 120, 126, 130, 120, 126, 130, 150, 125, 127, 130]
    after (exec (.lpfH4 .d8 8 4 par) s) (List.range 16) =
      some [100, 100, 119, 127, 120, 111, 122, 127, 130, 119, 124, 128, 150, 125, 126, 129] ∧
    after (exec (.lpfH4 .d8 4 (-4) par) s) (List.range 16) =
      some [100, 100, 119, 126, 120, 111, 122, 127, 130, 119, 124, 128, 150, 125, 126, 130] := by decide +kernel

/-- 95_test_vectors.md W6-4 and W6-4p: the two readings of `flat` (40_mask_engine.md R91). -/
theorem test_flat_readings :
    let s := world lineH6 w64
    after (exec (.lpfH6 .d8 116 16 par) { s with cfg := { s.cfg with flatIncludesP1Q1 := true } }) lineH6 =
      some [10, 15, 11, 11, 12, 12] ∧
    after (exec (.lpfH6 .d8 116 16 par) s) lineH6 = some [10, 12, 12, 12, 12, 12] := by decide +kernel

/-- 95_test_vectors.md B-1, B-2 (`blimit` inclusive), B-4, B-5 (`limit` inclusive), B-7, B-8 (`thresh` strict), M-SAT
(exact sum). -/
theorem test_mask_boundaries :
    (maskEngine false .w4 (scaleThresholds .d8 ⟨11, 255, 255⟩) [100, 100] [105, 104]).mask = false ∧
    (maskEngine false .w4 (scaleThresholds .d8 ⟨12, 255, 255⟩) [100, 100] [105, 104]).mask = true ∧
    (maskEngine false .w4 (scaleThresholds .d8 ⟨255, 4, 255⟩) [100, 105] [102, 102]).mask = false ∧
    (maskEngine false .w4 (scaleThresholds .d8 ⟨255, 5, 255⟩) [100, 105] [102, 102]).mask = true ∧
    (maskEngine false .w4 (scaleThresholds .d8 ⟨255, 255, 2⟩) [100, 100] [102, 105]).hev = true ∧
    (maskEngine false .w4 (scaleThresholds .d8 ⟨255, 255, 3⟩) [100, 100] [102, 105]).hev = false ∧
    (maskEngine false .w4 (scaleThresholds .d8 ⟨255, 255, 255⟩) [0, 0] [128, 128]).mask = false := by decide

/-- 95_test_vectors.md FL-5, FL-6 (`flat` at its bound, 10 bits), F2-1, F2-2 (`flat2`), LW-3 (no argument beyond index
3). Sides are written outward from the edge. -/
theorem test_flat_boundaries :
    (maskEngine false .w8 (scaleThresholds .d10 ⟨255, 255, 255⟩) [400, 400, 400, 404] [416, 416, 416, 416]).flat =
      true ∧
    (maskEngine false .w8 (scaleThresholds .d10 ⟨255, 255, 255⟩) [400, 400, 400, 405] [416, 416, 416, 416]).flat =
      false ∧
    (maskEngine false .w14 (scaleThresholds .d8 ⟨255, 255, 255⟩) [100, 100, 100, 100, 100, 100, 101]
      (List.replicate 7 104)).flat2 = true ∧
    (maskEngine false .w14 (scaleThresholds .d8 ⟨255, 255, 255⟩) [100, 100, 100, 100, 100, 100, 102]
      (List.replicate 7 104)).flat2 = false ∧
    maskEngine false .w14 (scaleThresholds .d8 ⟨255, 20, 255⟩) [100, 100, 100, 100, 130, 130, 130]
      (List.replicate 7 100) = { mask := true, hev := false, flat := true, flat2 := false } := by decide

/-- 95_test_vectors.md F4-8 (the two shifts differ), F4-12, F4-18 (clamps), F4-20 (10 bits). -/
theorem test_filter4 :
    filter4 .d8 true false 128 130 126 128 = { p1 := 128, p0 := 128, q0 := 127, q1 := 128 } ∧
    filter4 .d8 true true 0 0 255 255 = { p1 := 0, p0 := 15, q0 := 240, q1 := 255 } ∧
    filter4 .d12 true false 4095 4095 0 0 = { p1 := 3967, p0 := 3839, q0 := 256, q1 := 128 } ∧
    filter4 .d10 true false 400 440 480 500 = { p1 := 408, p0 := 455, q0 := 465, q1 := 492 } := by decide

/-- 95_test_vectors.md A6-2, A8-2, A14-2, A14-3 (rounding). -/
theorem test_averages :
    avg6 [3, 2, 1] [4, 5, 6] = { p := [3, 2], q := [4, 5] } ∧
    avg8 [1, 2, 3, 4] [5, 6, 7, 8] = { p := [4, 3, 3], q := [5, 5, 6] } ∧
    avg14 [7, 6, 5, 4, 3, 2, 1] [8, 9, 10, 11, 12, 13, 14] =
      { p := [7, 6, 5, 4, 4, 3], q := [8, 9, 10, 11, 11, 12] } ∧
    avg14 [0, 0, 0, 0, 0, 0, 0] [4, 0, 0, 0, 0, 0, 0] =
      { p := [1, 0, 0, 0, 0, 0], q := [1, 1, 0, 0, 0, 0] } := by decide

/-- 95_test_vectors.md P3: 256 samples, all 0 but `mem[5] = 300`. -/
def p3 : State :=
  { State.reset with cfg := { Config.default with memSamples := 256 }, mem := pixels [5] [300] }

/-- 95_test_vectors.md P3 a to d, and the accepted command beside them. -/
theorem test_refusals :
    refusal (exec (.lpfV14 .d8 4 16 par) p3) = some .footprintOutOfRange ∧
    refusal (exec (.lpfH4 .d8 8 2 par) p3) = some .footprintAlias ∧
    refusal (exec (.lpfH4 .d8 8 0 par) p3) = some .footprintAlias ∧
    refusal (exec (.lpfH4 .d8 36 16 par) p3) = some .sampleOutOfRange ∧
    after (exec (.lpfH4 .d8 40 16 par) p3) [5, 8, 24, 40, 56] = some [300, 0, 0, 0, 0] := by decide +kernel

/-! ### The machine -/

/-- An engine that has accepted command `i`. -/
def busyWith (i : Instr) : Engine := { Engine.reset with st := .busy, latch := encode i }

/-- Two engines, busy with commands on disjoint footprints (rows 0 to 3 at columns 6 to 9, and rows 8 to 11). -/
def twoBusy : State :=
  { world [22, 23, 24, 25] m42 with
    engines := [busyWith (.lpfV4 .d8 8 16 par), busyWith (.lpfH4 .d8 160 16 par)] }

/-- The samples, statuses and `done` outputs after a step. -/
def observe (o : Host.Outcome State Fault Refusal) (as : List Nat) : Option (List Nat × List (Status × Bool)) :=
  match o with
  | .next s => some (as.map (fun a => (s.mem.read a).toNat), s.engines.map fun e => (e.st, e.done))
  | .fault _ => none
  | .refused _ => none

/-- 10_state.md R30, and 20_memory.md R40: nothing is listed, one engine waits. -/
theorem test_reset_state :
    State.reset.engines.map (fun e => (e.st, e.done)) = [(.idle, false)] ∧ State.reset.mem = [] ∧
    State.reset.cfg.linesPerSegment = 4 ∧ State.reset.cfg.flatIncludesP1Q1 = false := by decide

/-- 30_encoding.md R61: a turn completes the command, with R196's result, and `done`; the other engine still runs. -/
theorem test_turn_completes :
    observe (step { twoBusy with inputs := [.turn 0] }) [22, 23, 24, 25] =
      some ([100, 111, 119, 125], [(.idle, true), (.busy, false)]) := by decide +kernel

/-- R61: an accepted command makes the engine `BUSY` and changes no sample; presented to a `BUSY` engine it is
`BusyIssue` (60_exceptions.md R222 puts it first), on a busy footprint `FootprintOverlap`. -/
theorem test_issue :
    observe (step { world [22] [100] with inputs := [.issue 0 (encode (.lpfV4 .d8 8 16 par))] }) [22] =
      some ([100], [(.busy, false)]) ∧
    refusal (step { twoBusy with inputs := [.issue 0 (ofWords 0x40 0 0 0)] }) = some .busyIssue ∧
    refusal (step { twoBusy with
      engines := twoBusy.engines ++ [Engine.reset], inputs := [.issue 2 (encode (.lpfV4 .d8 8 16 par))] }) =
      some .footprintOverlap := by decide +kernel

/-- 60_exceptions.md R229: the host may write outside the footprints in progress, not inside. -/
theorem test_host_write :
    observe (step { twoBusy with inputs := [.hostWrite 26 7] }) [25, 26] =
      some ([125, 7], [(.busy, false), (.busy, false)]) ∧
    refusal (step { twoBusy with inputs := [.hostWrite 25 7] }) = some .footprintOverlap ∧
    refusal (step { twoBusy with inputs := [.hostRead 25] }) = some .footprintOverlap := by decide +kernel

/-- A placed table word is what the very next step runs (R193's word and result). -/
theorem test_fetch_word :
    after (step ((world lineH6 w64).withFetchWord 128 0x00000074000000100000000314280001)) lineH6 =
      some [10, 12, 12, 12, 12, 12] := by decide +kernel

/-! ### Witnesses: each statement's hypotheses hold together somewhere

A statement that is not named here has no hypotheses but its bound ranges. -/

theorem contract_of_check {cfg : Config} {m : Memory} {c : Cmd} (h : checkCommand cfg m c = none) :
    InContract cfg m c := (checkCommand_eq_none_iff cfg m c).mp h

/-- A side whose every sample is at most `top` stays so at every index. -/
theorem getD_le_of_all {l : List Nat} {top : Nat} (h : ∀ x ∈ l, x ≤ top) (k : Nat) : l.getD k 0 ≤ top := by
  rcases Nat.lt_or_ge k l.length with hk | hk
  · rw [List.getD_eq_getElem _ _ hk]
    exact h _ (List.getElem_mem hk)
  · rw [List.getD_eq_default _ _ hk]
    exact Nat.zero_le _

/-- DecodeOfEncodeIsTheCommand: at the ends of every field. -/
theorem witness_wf :
    (Instr.lpfV14D .d12 (2 ^ 32 - 1) (-(2 ^ 31)) ⟨255, 255, 255⟩ ⟨255, 255, 255⟩).wf = true ∧
    (Instr.lpfH4 .d8 0 (2 ^ 31 - 1) ⟨0, 0, 0⟩).wf = true := by decide

/-- EncodeOfDecodeIsTheDescriptor: the smallest and the largest legal descriptor. -/
theorem witness_decodes :
    decode (ofWords 0 0 0 0) = .ok (.lpfH4 .d8 0 0 ⟨0, 0, 0⟩) ∧
    decode (ofWords 0xFFFF002F 0xFFFFFFFF 0xFFFFFFFF 0xFFFFFFFF) =
      .ok (.lpfV14D .d12 (2 ^ 32 - 1) (-1) ⟨255, 255, 255⟩ ⟨255, 255, 255⟩) := by decide

/-- DecodingReadsTheFieldTable, one word for each clause. -/
theorem witness_field_table :
    (let D := ofWords 0x14280040 0x00000003 0x00000010 0x00000024; D.extractLsb' 6 10 ≠ 0) ∧
    (let D := ofWords 0x14280030 0x00000003 0x00000010 0x00000024
     D.extractLsb' 6 10 = 0 ∧ D.extractLsb' 4 2 = 3) ∧
    (let D := ofWords 0x14280000 0x00010003 0x00000010 0x00000024
     D.extractLsb' 6 10 = 0 ∧ D.extractLsb' 4 2 ≠ 3 ∧ D.getLsbD 3 = false ∧ D.extractLsb' 40 24 ≠ 0) ∧
    (let D := ofWords 0x0814001E 0x03091802 0x00000040 0x00000200
     D.extractLsb' 6 10 = 0 ∧ D.extractLsb' 4 2 ≠ 3 ∧ (D.getLsbD 3 = false → D.extractLsb' 40 24 = 0)) := by decide

/-- AbsoluteDifferenceFromSaturation, SaturatedTestIsAtMost and ClampIsIdempotentOntoSignedRange: boundary values. -/
theorem witness_arithmetic :
    (absdiff 0 255 = 255 ∧ absdiff 7 7 = 0) ∧ (satsub 5 5 = 0 ∧ satsub 6 5 = 1) ∧
    (clampBd .d8 (-128) = -128 ∧ clampBd .d8 127 = 127 ∧ clampBd .d8 (-129) = -128 ∧ clampBd .d8 128 = 127) := by
  decide

/-- SignedCentringIsExclusiveOr: the ends of the range. -/
theorem witness_centring :
    (0 ≤ Depth.pmax .d12 ∧ (0 : Int) - Depth.bias .d12 = Depth.smin .d12) ∧
    (1023 ≤ Depth.pmax .d10 ∧ (1023 : Int) - Depth.bias .d10 = Depth.smax .d10) := by decide

/-- ThresholdsAreScaledBytes. -/
theorem witness_triple : (⟨255, 0, 255⟩ : Params).wf = true := by decide

/-- HighVarianceIsAStrictInnerStep, second clause: thresholds that differ but for `TH`. -/
theorem witness_same_thresh :
    (scaleThresholds .d8 ⟨0, 9, 3⟩).th = (scaleThresholds .d8 ⟨255, 20, 3⟩).th ∧
    scaleThresholds .d8 ⟨0, 9, 3⟩ ≠ scaleThresholds .d8 ⟨255, 20, 3⟩ := by decide

/-- FlatnessTiersImplyMask: a line of every tier (W14-1, W14-2, W14-3, W14-4). -/
theorem witness_tiers :
    let t := scaleThresholds .d8 par
    maskEngine false .w14 t (List.replicate 7 10) (List.replicate 7 20) =
      { mask := true, hev := false, flat := true, flat2 := true } ∧
    maskEngine false .w14 t [10, 10, 10, 10, 11, 13, 16] [20, 20, 20, 20, 21, 24, 28] =
      { mask := true, hev := false, flat := true, flat2 := false } ∧
    maskEngine false .w14 t [10, 12, 14, 16, 18, 20, 22] [20, 22, 24, 26, 28, 30, 32] =
      { mask := true, hev := false, flat := false, flat2 := false } ∧
    maskEngine false .w14 t (List.replicate 7 10) (List.replicate 7 60) =
      { mask := false, hev := false, flat := false, flat2 := false } := by decide

/-- FilterFourWithoutMaskIsIdentity, HighVarianceKeepsOuterSamples: samples at the ends of the range. -/
theorem witness_filter4_range :
    0 ≤ Depth.pmax .d12 ∧ 4095 ≤ Depth.pmax .d12 ∧
    filter4 .d12 false true 4095 0 4095 0 = { p1 := 4095, p0 := 0, q0 := 4095, q1 := 0 } := by decide

/-- FilterFourFixesExactlySmallAdjustments: `adj` is 3 (F4-5), -3 (F4-4), and the two corners. -/
theorem witness_small_adjustments :
    lineAdjust .d8 true false 120 120 121 120 = 3 ∧ lineAdjust .d8 true false 120 121 120 120 = -3 ∧
    (lineAdjust .d8 true true 0 0 0 4 = -4 ∧
      filter4 .d8 true true 0 0 0 4 = { p1 := 0, p0 := 0, q0 := 0, q1 := 4 }) ∧
    (lineAdjust .d8 true true 4 0 0 0 = 4 ∧
      filter4 .d8 true true 4 0 0 0 = { p1 := 4, p0 := 0, q0 := 0, q1 := 0 }) := by decide

/-- AveragesStayInSampleRange, both parts at every stage: the largest constant side a line of width 6, 8 and 14 gathers
(width 14: A14-4), and no wider. -/
theorem witness_average_lines :
    ∀ K ∈ [3, 4, 7], (∀ k, (List.replicate K 4095).getD k 0 ≤ 4095) ∧
      (∀ k < K, (List.replicate K 4095).getD k 0 = 4095) ∧ (List.replicate K 4095).getD K 0 = 0 := by
  intro K hK
  exact ⟨getD_le_of_all fun x hx => (List.mem_replicate.mp hx).2.le, by revert K; decide, by revert K; decide⟩

/-- FinestTrueTierIsSelected, ResultsStayInSampleRange: the lines of `witness_tiers` are in range. -/
theorem witness_line_range :
    (∀ k, [10, 10, 10, 10, 11, 13, 16].getD k 0 ≤ Depth.pmax .d8) ∧
    (∀ k, [20, 20, 20, 20, 21, 24, 28].getD k 0 ≤ Depth.pmax .d8) ∧
    (∀ k, (List.replicate 7 10).getD k 0 ≤ Depth.pmax .d8) ∧ ∀ k, (List.replicate 7 60).getD k 0 ≤ Depth.pmax .d8 :=
  ⟨getD_le_of_all (by decide), getD_le_of_all (by decide), getD_le_of_all (by decide), getD_le_of_all (by decide)⟩

/-- HighVarianceDoesNotGateAverages: W6-4 is flat, with `hev` and without. -/
theorem witness_flat_line :
    maskEngine false .w6 (scaleThresholds .d8 par) [10, 15, 10] [12, 12, 12] =
      { mask := true, hev := true, flat := true, flat2 := false } ∧
    (maskEngine false .w6 { scaleThresholds .d8 par with th := 5 } [10, 15, 10] [12, 12, 12]).hev = false := by decide

/-- UnfilteredLineIsAFixedPoint: W8-3. -/
theorem witness_unfiltered_line :
    let r : LineRegs := { p := [10, 10, 10, 10], q := [60, 60, 60, 60], masks := ⟨false, false, false, false⟩,
                          oP := [], oQ := [] }
    r.p.length = Width.w8.K ∧ r.q.length = Width.w8.K ∧ (∀ k, r.p.getD k 0 ≤ Depth.pmax .d8) ∧
    (∀ k, r.q.getD k 0 ≤ Depth.pmax .d8) ∧
    (filterLine false .w8 .d8 (scaleThresholds .d8 par) r).masks.mask = false :=
  ⟨rfl, rfl, getD_le_of_all (by decide), getD_le_of_all (by decide), by decide⟩

/-- ConstantLineIsAFixedPoint: X-2. -/
theorem witness_constant_line :
    4095 ≤ Depth.pmax .d12 ∧
    ∀ k < Width.w14.K, Side.px (List.replicate 7 4095) k = (4095 : Nat) ∧
      Side.px (List.replicate 7 4095) k = (4095 : Nat) := by decide

/-- WriteSetIsTheInnerFootprint: the footprint of R182's vertical example is distinct. -/
theorem witness_distinct_footprint :
    ((Instr.lpfV8 .d8 32 16 par).cmd.footprint 4).Nodup ∧ 3 < Width.w8.K ∧ ¬3 < Width.w8.M := by decide

/-- FootprintDistinctExactlyForWideStrides: both clauses, at the smallest distinct stride and just below it. -/
theorem witness_stride_bounds :
    ((Instr.lpfH4 .d8 32 (-4) par).cmd.footprint 4).Nodup ∧ ¬((Instr.lpfH4 .d8 32 (-3) par).cmd.footprint 4).Nodup ∧
    ((Instr.lpfV6D .d8 32 6 par par).cmd.footprint 1).Nodup ∧
    ¬((Instr.lpfV6D .d8 32 5 par par).cmd.footprint 1).Nodup ∧
    1 ≤ (Instr.lpfH4 .d8 32 (-4) par).cmd.nLines 4 ∧ 2 ≤ (Instr.lpfV6D .d8 32 6 par par).cmd.nLines 1 := by decide

/-- Readiness for the completion statements: one ready command of each constructor. -/
theorem ready_of_check {s : State} {i : Instr} (h : s.cur < s.engines.length)
    (h' : checkCommand s.cfg s.mem i.cmd = none) : Ready s i := ⟨h, contract_of_check h'⟩

/-- WidthFourCommandsComplete. -/
theorem witness_ready_width_four :
    Ready (world lineH4 m42) (.lpfH4 .d8 116 16 par) ∧ Ready (world lineH4 m42) (.lpfV4 .d8 8 16 par) ∧
    Ready (world lineH4 m42) (.lpfH4D .d8 116 16 par par) ∧ Ready (world lineH4 m42) (.lpfV4D .d8 8 16 par par) :=
  ⟨ready_of_check (by decide) (by decide +kernel), ready_of_check (by decide) (by decide +kernel),
    ready_of_check (by decide) (by decide +kernel), ready_of_check (by decide) (by decide +kernel)⟩

/-- WidthSixCommandsComplete. -/
theorem witness_ready_width_six :
    Ready (world lineH6 w64) (.lpfH6 .d8 116 16 par) ∧ Ready (world lineH6 w64) (.lpfV6 .d8 8 16 par) ∧
    Ready (world lineH6 w64) (.lpfH6D .d8 116 16 par par) ∧ Ready (world lineH6 w64) (.lpfV6D .d8 8 16 par par) :=
  ⟨ready_of_check (by decide) (by decide +kernel), ready_of_check (by decide) (by decide +kernel),
    ready_of_check (by decide) (by decide +kernel), ready_of_check (by decide) (by decide +kernel)⟩

/-- WidthEightCommandsComplete. -/
theorem witness_ready_width_eight :
    Ready (world lineH8 w82) (.lpfH8 .d8 116 16 par) ∧ Ready (world lineH8 w82) (.lpfV8 .d8 8 16 par) ∧
    Ready (world lineH8 w82) (.lpfH8D .d8 116 16 par par) ∧ Ready (world lineH8 w82) (.lpfV8D .d8 8 16 par par) :=
  ⟨ready_of_check (by decide) (by decide +kernel), ready_of_check (by decide) (by decide +kernel),
    ready_of_check (by decide) (by decide +kernel), ready_of_check (by decide) (by decide +kernel)⟩

/-- WidthFourteenCommandsComplete; also the left sides of CommandsChangeOnlyTheirWriteSet and
WorkingRegistersHoldTheCommand, since a ready command answers a next state. -/
theorem witness_ready_width_fourteen :
    Ready (world lineH14 w142) (.lpfH14 .d8 116 16 par) ∧ Ready (world lineH14 w142) (.lpfV14 .d8 8 16 par) ∧
    Ready (world lineH14 w142) (.lpfH14D .d8 116 16 par par) ∧
    Ready (world lineH14 w142) (.lpfV14D .d8 8 16 par par) :=
  ⟨ready_of_check (by decide) (by decide +kernel), ready_of_check (by decide) (by decide +kernel),
    ready_of_check (by decide) (by decide +kernel), ready_of_check (by decide) (by decide +kernel)⟩

/-- CommandsChangeOnlyTheirWriteSet, WorkingRegistersHoldTheCommand: a next state. -/
theorem witness_exec_next :
    ∃ t, exec (.lpfH14 .d8 116 16 par) (world lineH14 w142) = .next t :=
  ⟨_, by
    rw [exec_eq_runCommand]
    exact runCommand_of_ready (e := Engine.reset) rfl witness_ready_width_fourteen.1.2⟩

/-- CommandsRefuseExactlyOutsideContract: its hypothesis, and each clause's refusal (P3 a, b, d). -/
theorem witness_refusals :
    p3.cur < p3.engines.length ∧
    checkCommand p3.cfg p3.mem (Instr.lpfV14 .d8 4 16 par).cmd = some .footprintOutOfRange ∧
    checkCommand p3.cfg p3.mem (Instr.lpfH4 .d8 8 2 par).cmd = some .footprintAlias ∧
    checkCommand p3.cfg p3.mem (Instr.lpfH4 .d8 36 16 par).cmd = some .sampleOutOfRange ∧
    checkCommand p3.cfg p3.mem (Instr.lpfH4 .d8 40 16 par).cmd = none := by decide +kernel

/-- CommandWithoutMaskLeavesMemory: with `limit = blimit = 0` no line of this picture has `mask`. -/
theorem witness_no_mask :
    let s := picture [10, 10, 60, 60, 10, 10, 60, 60, 10, 10, 60, 60, 10, 10, 60, 60]
    let i := Instr.lpfV4 .d8 2 4 ⟨0, 0, 0⟩
    completes (exec i s) = true ∧
    ∀ n < i.cmd.nLines s.cfg.linesPerSegment, (lineMasks s.cfg s.mem i.cmd n).mask = false := by decide +kernel

/-- CommandsReadOnlyTheirFootprint: a machine that agrees on the footprint and differs elsewhere, in its engine
too. -/
theorem witness_same_footprint :
    let s := world [22, 23, 24, 25] m42
    let u : State := { world [22, 23, 24, 25, 1000] (m42 ++ [9]) with
                       engines := [{ Engine.reset with thr0 := ⟨1, 2, 3, 4⟩, latch := 5 }] }
    let i := Instr.lpfV4 .d8 8 16 par
    s.cfg = u.cfg ∧ u.cur < u.engines.length ∧
    (∀ a ∈ i.cmd.footprint s.cfg.linesPerSegment, u.mem.sample a = s.mem.sample a) ∧
    completes (exec i s) = true ∧ s.mem ≠ u.mem := by decide +kernel

/-- DualEqualsTwoSingles, both orientations: the second base, and a ready dual command. -/
theorem witness_dual :
    (((120 : Nat) : Int) = (116 : Nat) + ((State.reset.cfg.linesPerSegment : Nat) : Int) ∧
      Ready State.reset (instrOf true .horizontal .w8 .d8 116 16 par ⟨24, 20, 3⟩)) ∧
    (((72 : Nat) : Int) = (8 : Nat) + ((State.reset.cfg.linesPerSegment : Nat) : Int) * 16 ∧
      Ready State.reset (instrOf true .vertical .w8 .d8 8 16 par ⟨24, 20, 3⟩)) :=
  ⟨⟨by decide, ready_of_check (by decide) (by decide +kernel)⟩,
    ⟨by decide, ready_of_check (by decide) (by decide +kernel)⟩⟩

/-- VerticalEqualsTransposedHorizontal: T8's memory and its transposed buffer. -/
theorem witness_transpose :
    let s := picture [10, 10, 10, 10, 20, 20, 20, 20, 16, 14, 12, 10, 20, 22, 24, 26,
      10, 10, 10, 10, 60, 60, 60, 60, 12, 10, 10, 10, 14, 14, 13, 13]
    let u := picture [10, 16, 10, 12, 10, 14, 10, 10, 10, 12, 10, 10, 10, 10, 10, 10,
      20, 20, 60, 14, 20, 22, 60, 14, 20, 24, 60, 13, 20, 26, 60, 13]
    u.cfg.linesPerSegment = s.cfg.linesPerSegment ∧ u.cfg.flatIncludesP1Q1 = s.cfg.flatIncludesP1Q1 ∧
    2 * Width.w8.K * (1 * s.cfg.linesPerSegment) ≤ u.cfg.memSamples ∧ u.cur < u.engines.length ∧
    (∀ n < 4, ∀ j < 8, u.mem.read (j * 4 + n) = s.mem.read ((4 : Int) + n * 8 + (j - 4)).toNat) ∧
    s.cur < s.engines.length ∧ checkCommand s.cfg s.mem (Instr.lpfV8 .d8 4 8 par).cmd = none := by decide +kernel

/-- StepRunsTheLatchedCommand, its first part: engine 0's turn; its second: no event left and engine 0 `IDLE`, so
engine 1 is the lowest-numbered `BUSY` one. -/
theorem witness_turn :
    (let s : State := { twoBusy with inputs := [.turn 0] }
     s.engines[0]? = some (busyWith (.lpfV4 .d8 8 16 par)) ∧
     decode (busyWith (.lpfV4 .d8 8 16 par)).latch = .ok (.lpfV4 .d8 8 16 par)) ∧
    (let s : State := { twoBusy with engines := [Engine.reset, busyWith (.lpfH4 .d8 160 16 par)] }
     s.inputs = [] ∧ s.engines[1]? = some (busyWith (.lpfH4 .d8 160 16 par)) ∧
     decode (busyWith (.lpfH4 .d8 160 16 par)).latch = .ok (.lpfH4 .d8 160 16 par) ∧
     ∀ j < 1, (s.engines[j]?.map fun f => f.st) = some .idle) := by decide +kernel

/-- IssuedCommandRunsToDone: an `IDLE` engine beside a `BUSY` one with a disjoint footprint. -/
theorem witness_issue :
    let i := Instr.lpfV4 .d8 8 16 par
    let s : State := { world [22, 23, 24, 25] m42 with
                       engines := [Engine.reset, busyWith (.lpfH4 .d8 160 16 par)],
                       inputs := [.issue 0 (encode i), .turn 0] }
    i.wf = true ∧ s.engines[0]? = some Engine.reset ∧ checkCommand s.cfg s.mem i.cmd = none ∧
    ∀ a ∈ i.cmd.footprint s.cfg.linesPerSegment, heldBySome s a = false := by decide +kernel

/-- IssueReportsTheFirstReason: each clause once, over P3's memory with an `IDLE` and a `BUSY` engine. -/
theorem witness_issue_reasons :
    let s : State := { p3 with engines := [Engine.reset, busyWith (.lpfH4 .d8 40 16 par)] }
    (s.engines[1]?.map fun e => e.st) = some .busy ∧ (s.engines[0]?.map fun e => e.st) = some .idle ∧
    refusal (issue 1 0 s) = some .busyIssue ∧
    refusal (issue 0 (ofWords 0x14280070 0x00010003 0 0) s) = some .reservedBits ∧
    refusal (issue 0 (ofWords 0x14280030 0x00010003 0 0) s) = some .reservedDepth ∧
    refusal (issue 0 (ofWords 0x14280000 0x00010003 0 0) s) = some .reservedParams ∧
    refusal (issue 0 (encode (.lpfV14 .d8 4 16 par)) s) = some .footprintOutOfRange ∧
    refusal (issue 0 (encode (.lpfH4 .d8 8 2 par)) s) = some .footprintAlias ∧
    refusal (issue 0 (encode (.lpfH4 .d8 36 16 par)) s) = some .sampleOutOfRange ∧
    refusal (issue 0 (encode (.lpfH4 .d8 40 16 par)) s) = some .footprintOverlap ∧
    completes (issue 0 (encode (.lpfH4 .d8 44 16 par)) s) = true := by decide +kernel

/-- DonePulsesOnlyAtCompletion, StepKeepsParameters, and StatusChangesByAcceptCompletionOrReset's last two clauses:
`done` rises at the turn of a `BUSY` engine, or of the lowest-numbered one when no event is left, while the other engine
stays `BUSY`. -/
theorem witness_done_rises :
    (observe (step { twoBusy with inputs := [.turn 1, .turn 0] }) []).map Prod.snd =
      some [(.busy, false), (.idle, true)] ∧
    (observe (step twoBusy) []).map Prod.snd = some [(.idle, true), (.busy, false)] := by decide +kernel

/-- The same statements: a reset takes two engines from `BUSY` to `IDLE` and `done` does not rise. -/
theorem witness_reset_without_done :
    (observe (step { twoBusy with inputs := [.reset, .turn 0] }) []).map Prod.snd =
      some [(.idle, false), (.idle, false)] := by decide +kernel

/-- StatusChangesByAcceptCompletionOrReset, its first clause: an `IDLE` engine becomes `BUSY` by the command presented to
it, while the engine beside it stays `BUSY`. -/
theorem witness_accepts :
    let s : State := { twoBusy with engines := [Engine.reset, busyWith (.lpfH4 .d8 160 16 par)],
                                    inputs := [.issue 0 (encode (.lpfV4 .d8 8 16 par))] }
    (observe (step s) []).map Prod.snd = some [(.busy, false), (.busy, false)] := by decide +kernel

/-- HostAccessStaysOutsideHeldFootprints: an address of each kind, at the ends of the memory and of a footprint. -/
theorem witness_host :
    let s : State := { p3 with engines := [busyWith (.lpfH4 .d8 40 16 par)] }
    (255 < s.cfg.memSamples ∧ heldBySome s 255 = false) ∧ (heldBySome s 8 = true ∧ heldBySome s 12 = false) ∧
    completes (hostWrite 255 1 s) = true ∧ completes (hostWrite 256 1 s) = false ∧
    completes (hostRead 12 s) = true ∧ refusal (hostRead 8 s) = some .footprintOverlap := by decide +kernel

/-- ResetKeepsOrFinishesEachSample, StepKeepsInvariant, AcceptedCommandAlwaysCompletes, ConcurrentCommandsCommute,
AcceptedCommandsDrain: two commands in progress, in a consistent state. -/
theorem witness_consistent : Consistent twoBusy where
  config := by decide
  memory := by decide +kernel
  listed := by decide +kernel
  accepted := by
    intro e he hb
    rcases List.mem_cons.mp he with rfl | he
    · exact ⟨(Instr.lpfV4 .d8 8 16 par).cmd, by decide +kernel, contract_of_check (by decide +kernel)⟩
    · rw [List.mem_singleton.mp he]
      exact ⟨(Instr.lpfH4 .d8 160 16 par).cmd, by decide +kernel, contract_of_check (by decide +kernel)⟩
  apart := by
    refine List.pairwise_cons.mpr ⟨?_, List.pairwise_singleton _ _⟩
    intro f hf
    rw [List.mem_singleton.mp hf]
    decide +kernel

/-- The same state with any script. -/
theorem witness_consistent_script (l : List Input) : Consistent { twoBusy with inputs := l } :=
  ⟨witness_consistent.config, witness_consistent.memory, witness_consistent.listed, witness_consistent.accepted,
    witness_consistent.apart⟩

/-- The other hypotheses of those statements. -/
theorem witness_two_busy :
    (0 : Nat) ≠ 1 ∧ twoBusy.inputs = [] ∧ twoBusy.engines[0]? = some (busyWith (.lpfV4 .d8 8 16 par)) ∧
    twoBusy.engines[1]? = some (busyWith (.lpfH4 .d8 160 16 par)) ∧
    (busyWith (.lpfV4 .d8 8 16 par)).st = .busy ∧ (busyWith (.lpfH4 .d8 160 16 par)).st = .busy := by decide +kernel

/-- StepKeepsInvariant: a step from that state that answers a next state. -/
theorem witness_consistent_step : ∃ t, step { twoBusy with inputs := [.turn 0] } = .next t := by
  refine ⟨commandState (Instr.lpfV4 .d8 8 16 par).cmd { eventState { twoBusy with inputs := [.turn 0] } with cur := 0 }
    (busyWith (.lpfV4 .d8 8 16 par)), ?_⟩
  refine (engineTurn_eq_next_iff 0 (eventState { twoBusy with inputs := [.turn 0] }) _).mpr
    ⟨_, rfl, .inr ⟨_, ?_, contract_of_check (by decide +kernel), rfl⟩⟩
  decide +kernel

/-- MemoryChangesOnlyByCommandOrHost: a sample changed by a command, and one changed by the host. -/
theorem witness_memory_changes :
    (twoBusy.mem.read 23).toNat = 110 ∧ after (step { twoBusy with inputs := [.turn 0] }) [23] = some [111] ∧
    (twoBusy.mem.read 26).toNat = 0 ∧ after (step { twoBusy with inputs := [.hostWrite 26 7] }) [26] = some [7] := by
  decide +kernel

/-- ByteViewIsLittleEndian: the largest sample of each depth. -/
theorem witness_byte_view :
    let m := pixels [0, 1, 2] [255, 1023, 4095]
    (m.read 0).toNat ≤ Depth.pmax .d8 ∧ (m.read 1).toNat ≤ Depth.pmax .d10 ∧ (m.read 2).toNat ≤ Depth.pmax .d12 ∧
    m.byteAt .d8 0 = 0xFF ∧ m.byteAt .d10 2 = 0xFF ∧ m.byteAt .d10 3 = 0x03 ∧ m.byteAt .d12 4 = 0xFF ∧
    m.byteAt .d12 5 = 0x0F := by decide +kernel

end Sys2Proof.Tests
end

section
/-! The obligations of 00_scope.md: the arithmetic primitives (R7 to R10) and what every step keeps (R5). -/

namespace Sys2Proof

/-- A sample of any depth has a sign bit, bit `w`. -/
theorem Depth.exists_bd_eq_succ (d : Depth) : ∃ w, d.bd = w + 1 := by
  cases d with
  | d8 => exact ⟨7, rfl⟩
  | d10 => exact ⟨9, rfl⟩
  | d12 => exact ⟨11, rfl⟩

namespace Machine

/-! ### Saturating and absolute difference (R7) -/

theorem satsub_eq_zero_iff (a b : Int) : satsub a b = 0 ↔ a ≤ b := by
  unfold satsub; omega

theorem satsub_eq_zero_or_swap (a b : Int) : satsub a b = 0 ∨ satsub b a = 0 :=
  (le_total a b).imp (satsub_eq_zero_iff a b).mpr (satsub_eq_zero_iff b a).mpr

theorem absdiff_eq_abs (a b : Int) : absdiff a b = |a - b| := Int.natCast_natAbs _

theorem absdiff_eq_satsub_add_swap (a b : Int) : absdiff a b = satsub a b + satsub b a := by
  unfold absdiff satsub; omega

/-- One term is zero, so the sum is the bitwise OR. -/
theorem toNat_absdiff_eq_or (a b : Int) : (absdiff a b).toNat = (satsub a b).toNat ||| (satsub b a).toNat := by
  rw [absdiff_eq_satsub_add_swap]
  rcases satsub_eq_zero_or_swap a b with h | h
  · simp [h]
  · simp [h]

/-- Settles O5, from the two saturating differences, one of which is always zero. -/
theorem absoluteDifferenceFromSaturation : Obligations.AbsoluteDifferenceFromSaturation := fun a b _ _ =>
  ⟨rfl, absdiff_eq_abs a b, absdiff_eq_satsub_add_swap a b, satsub_eq_zero_or_swap a b, toNat_absdiff_eq_or a b⟩

/-! ### Right shift (R10) -/

/-- Settles O7: integer division by a positive number is the floor of the rational quotient. -/
theorem rightShiftIsFloor : Obligations.RightShiftIsFloor := fun v n => by
  simpa [asr] using (Rat.floor_intCast_div_natCast v (2 ^ n)).symm

/-! ### Clamp (R9) -/

theorem clampBd_idem (d : Depth) (v : Int) : clampBd d (clampBd d v) = clampBd d v :=
  clampBd_of_mem (clampBd_mem d v)

/-- Settles O8, from the clamp's range and its fixed points. -/
theorem clampIsIdempotentOntoSignedRange : Obligations.ClampIsIdempotentOntoSignedRange := fun d v =>
  ⟨rfl, clampBd_mem d v, fun hlo hhi => clampBd_of_mem ⟨hlo, hhi⟩, clampBd_idem d v⟩

/-! ### Signed centring (R8) -/

theorem xor_two_pow_of_lt {w x : Nat} (h : x < 2 ^ w) : x ^^^ 2 ^ w = x + 2 ^ w := by
  have hdiv : (x ^^^ 2 ^ w) / 2 ^ w = 1 := by
    rw [Nat.xor_div_two_pow, Nat.div_eq_of_lt h, Nat.div_self (Nat.two_pow_pos w), Nat.zero_xor]
  have hmod : (x ^^^ 2 ^ w) % 2 ^ w = x := by
    rw [Nat.xor_mod_two_pow, Nat.mod_self, Nat.xor_zero, Nat.mod_eq_of_lt h]
  have hsum := Nat.div_add_mod (x ^^^ 2 ^ w) (2 ^ w)
  rw [hdiv, hmod] at hsum
  omega

/-- Clearing the set bit `w` undoes `xor_two_pow_of_lt`. -/
theorem xor_two_pow_of_le {w x : Nat} (hle : 2 ^ w ≤ x) (hlt : x < 2 ^ (w + 1)) : x ^^^ 2 ^ w = x - 2 ^ w := by
  have h : (x - 2 ^ w) ^^^ 2 ^ w = x := by
    rw [xor_two_pow_of_lt (by omega), Nat.sub_add_cancel hle]
  calc x ^^^ 2 ^ w = (x - 2 ^ w) ^^^ 2 ^ w ^^^ 2 ^ w := by rw [h]
    _ = x - 2 ^ w := Nat.xor_xor_cancel_right _ _

/-- Inverting the sign bit of a `w + 1`-bit number and reading it as two's complement subtracts the sign bit's weight:
a clear sign bit becomes set, a set one clear. -/
theorem toInt_xor_signBit {w x : Nat} (h : x < 2 ^ (w + 1)) :
    (BitVec.ofNat (w + 1) x ^^^ BitVec.ofNat (w + 1) (2 ^ w)).toInt = (x : Int) - 2 ^ w := by
  have hw : 2 ^ w < 2 ^ (w + 1) := Nat.pow_lt_pow_succ (by decide)
  have hcast : ((2 ^ w : Nat) : Int) = 2 ^ w := by simp
  rw [BitVec.toInt_eq_toNat_cond, BitVec.toNat_xor, BitVec.toNat_ofNat, BitVec.toNat_ofNat, Nat.mod_eq_of_lt h,
    Nat.mod_eq_of_lt hw]
  rcases Nat.lt_or_ge x (2 ^ w) with hx | hx
  · rw [xor_two_pow_of_lt hx]
    split <;> omega
  · rw [xor_two_pow_of_le hx h]
    split <;> omega

theorem centred_mem {d : Depth} {x : Nat} (h : x ≤ d.pmax) :
    d.smin ≤ (x : Int) - d.bias ∧ (x : Int) - d.bias ≤ d.smax := by
  obtain ⟨hmin, hmax⟩ := bias_range d
  omega

theorem toInt_xor_bias {d : Depth} {x : Nat} (h : x ≤ d.pmax) :
    (BitVec.ofNat d.bd x ^^^ BitVec.ofNat d.bd (2 ^ (d.bd - 1))).toInt = (x : Int) - d.bias := by
  have hx : x < 2 ^ d.bd := Nat.lt_of_le_pred (Nat.two_pow_pos _) h
  obtain ⟨w, hw⟩ := d.exists_bd_eq_succ
  rw [Depth.bias]
  rw [hw] at hx ⊢
  exact toInt_xor_signBit hx

/-- Settles O9, from the inversion of a sign bit at every width. -/
theorem signedCentringIsExclusiveOr : Obligations.SignedCentringIsExclusiveOr := fun _ _ h =>
  ⟨toInt_xor_bias h, centred_mem h⟩

/-! ### What a step keeps (R5) -/

/-- Settles O53, by the five things a step can have done: each leaves the parameters, replaces engines in place, and
takes at most the event at the head of the script. -/
theorem stepKeepsParameters : Obligations.StepKeepsParameters := by
  intro s t h
  have hlen : (eventState s).engines.length = s.engines.length := List.length_map _
  rcases step_cases h with rfl | ⟨e, eng, c, -, -, -, rfl, -⟩ | ⟨e, d, eng, i, -, -, -, -, -, -, rfl⟩ |
    ⟨a, v, -, -, -, rfl⟩ | ⟨-, rfl⟩
  · exact ⟨rfl, hlen, rfl⟩
  · exact ⟨rfl, List.length_set.trans hlen, rfl⟩
  · exact ⟨rfl, List.length_set.trans hlen, rfl⟩
  · exact ⟨rfl, hlen, rfl⟩
  · exact ⟨rfl, (List.length_map _).trans hlen, rfl⟩

end Machine
end Sys2Proof
end

section
/-! The obligations of 10_state.md: the state after reset (R30), what a step does to the pixel memory (R21) and to an
engine's status and latch (R26, R28), and the working registers a command leaves (R22, R23, R25, R27). -/

namespace Sys2Proof.Machine

/-! ### The state after reset (R30, R240) -/

theorem mem_reset_engines {e : Engine} : e ∈ State.reset.engines ↔ e = Engine.reset := List.mem_singleton

/-- Settles O48: reset lists no sample and leaves one `IDLE` engine, so no command is in progress. -/
theorem resetStateSatisfiesInvariant : Obligations.ResetStateSatisfiesInvariant := by
  refine ⟨{ config := by decide, memory := by decide, listed := by decide, accepted := ?_, apart := ?_ }, ?_⟩
  · intro e he hbusy
    rw [mem_reset_engines.mp he] at hbusy
    cases hbusy
  · exact List.pairwise_singleton _ _
  · intro e he
    rw [mem_reset_engines.mp he]
    exact ⟨rfl, rfl⟩

/-! ### Where a step changes the memory (R21, R40, R51) -/

/-- Address `a` is in the write set of the command engine `e` has in progress. -/
def Engine.MayWrite (L : Nat) (e : Engine) (a : Nat) : Prop :=
  ∃ c, e.command = some c ∧ ∃ b ∈ c.writeSet L, b.toNat = a

theorem exists_writeSet_of_mem_commandStores {cfg : Config} {m : Memory} {c : Cmd} {w : Nat × Sample}
    (hw : w ∈ commandStores cfg m c) : ∃ b ∈ c.writeSet cfg.linesPerSegment, b.toNat = w.1 := by
  have hkey := List.mem_map_of_mem (f := Prod.fst) hw
  rwa [commandStores_keys, List.mem_map] at hkey

/-- A completed command changes its write set only. -/
theorem mayWrite_of_read_commandMemory_ne {cfg : Config} {m : Memory} {e : Engine} {c : Cmd} {a : Nat}
    (hc : e.command = some c) (h : (commandMemory cfg m c).read a ≠ m.read a) :
    e.MayWrite cfg.linesPerSegment a := by
  by_contra hnot
  exact h (commandMemory_frame cfg m c a fun b hb hba => hnot ⟨c, hc, b, hb, hba⟩)

/-- So does an abandoned one: the writes that have landed are some of the command's. -/
theorem mayWrite_of_read_abandon_ne {cfg : Config} {ctr : Nat} {m : Memory} {e : Engine} {a : Nat}
    (h : (abandon cfg ctr m e).read a ≠ m.read a) : e.MayWrite cfg.linesPerSegment a := by
  unfold abandon at h
  split at h
  · exact absurd rfl h
  · rename_i c hc
    split at h
    · exact absurd rfl h
    · rw [work_stores] at h
      by_contra hnot
      refine h (Memory.read_writeAll_of_not_mem _ _ _ fun w hw hwa => ?_)
      obtain ⟨b, hb, hbw⟩ := exists_writeSet_of_mem_commandStores (List.mem_filter.mp hw).1
      exact hnot ⟨c, hc, b, hb, hbw.trans hwa⟩

theorem exists_mayWrite_of_read_foldl_abandon_ne {cfg : Config} {ctr a : Nat} (es : List Engine) {m : Memory}
    (h : (es.foldl (abandon cfg ctr) m).read a ≠ m.read a) : ∃ e ∈ es, e.MayWrite cfg.linesPerSegment a := by
  induction es generalizing m with
  | nil => exact absurd rfl h
  | cons e es ih =>
    by_cases hfirst : (abandon cfg ctr m e).read a = m.read a
    · rw [List.foldl_cons, ← hfirst] at h
      obtain ⟨f, hf, hw⟩ := ih h
      exact ⟨f, List.mem_cons_of_mem _ hf, hw⟩
    · exact ⟨e, List.mem_cons_self, mayWrite_of_read_abandon_ne hfirst⟩

/-- Deasserting `done` changes no command in progress. -/
theorem exists_mayWrite_of_eventState {s : State} {L a : Nat} (h : ∃ e ∈ (eventState s).engines, e.MayWrite L a) :
    ∃ e ∈ s.engines, e.MayWrite L a := by
  obtain ⟨e, he, hw⟩ := h
  obtain ⟨f, hf, rfl⟩ := List.mem_map.mp he
  exact ⟨f, hf, hw⟩

/-- Settles O54, by the five things a step can have done: a completion and a reset write only for commands in progress,
a host write changes the one address it names, and nothing else writes. -/
theorem memoryChangesOnlyByCommandOrHost : Obligations.MemoryChangesOnlyByCommandOrHost := by
  intro s t a h hne
  rcases step_cases h with rfl | ⟨e, eng, c, he, hc, -, rfl, -⟩ | ⟨e, d, eng, i, -, -, -, -, -, -, rfl⟩ |
    ⟨b, v, hin, -, -, rfl⟩ | ⟨-, rfl⟩
  · exact absurd rfl hne
  · exact .inl (exists_mayWrite_of_eventState ⟨eng, List.mem_of_getElem? he, mayWrite_of_read_commandMemory_ne hc hne⟩)
  · exact absurd rfl hne
  · rw [Memory.read_write] at hne ⊢
    by_cases hab : a = b
    · subst hab
      exact .inr ⟨v, hin, if_pos rfl⟩
    · exact absurd (if_neg hab) hne
  · exact .inl (exists_mayWrite_of_eventState (exists_mayWrite_of_read_foldl_abandon_ne _ hne))

/-! ### What a step does to one engine (R26, R28) -/

/-- The four things a step can have done to engine `e`: nothing but deassert `done`, complete its command, accept one,
or reset it; the last three with the event that was taken. -/
theorem step_engine_cases {s t : State} {e : Nat} {before after : Engine} (h : step s = .next t)
    (hbefore : s.engines[e]? = some before) (hafter : t.engines[e]? = some after) :
    after = { before with done := false } ∨
    (∃ c, before.command = some c ∧ after = (Engine.work { before with done := false } s.cfg s.mem c).finish ∧
      (s.inputs.head? = some (.turn e) ∨ s.inputs = [])) ∨
    (∃ d i, s.inputs.head? = some (.issue e d) ∧ before.st = .idle ∧ decode d = .ok i ∧
      after = { before with done := false, st := .busy, latch := d }) ∨
    (s.inputs.head? = some .reset ∧ after = Engine.reset) := by
  have hevent : (eventState s).engines[e]? = some { before with done := false } := by simp [hbefore]
  have hlt : e < (eventState s).engines.length := (List.getElem?_eq_some_iff.mp hevent).1
  have kept : (eventState s).engines[e]? = some after → after = { before with done := false } := fun ha =>
    Option.some.inj (ha.symm.trans hevent)
  rcases step_cases h with rfl | ⟨f, eng, c, hf, hc, -, rfl, hin⟩ | ⟨f, d, eng, i, hin, hf, hidle, hd, -, -, rfl⟩ |
    ⟨a, v, -, -, -, rfl⟩ | ⟨hin, rfl⟩
  · exact .inl (kept hafter)
  · by_cases hfe : f = e
    · subst hfe
      cases hf.symm.trans hevent
      cases (List.getElem?_set_self hlt).symm.trans hafter
      exact .inr (.inl ⟨c, hc, rfl, hin⟩)
    · exact .inl (kept ((List.getElem?_set_ne hfe).symm.trans hafter))
  · by_cases hfe : f = e
    · subst hfe
      cases hf.symm.trans hevent
      cases (List.getElem?_set_self hlt).symm.trans hafter
      exact .inr (.inr (.inl ⟨d, i, hin, hidle, hd, rfl⟩))
    · exact .inl (kept ((List.getElem?_set_ne hfe).symm.trans hafter))
  · exact .inl (kept hafter)
  · rw [resetEvent_engines, List.getElem?_map, hevent] at hafter
    cases hafter
    exact .inr (.inr (.inr ⟨hin, rfl⟩))

/-- Settles O56: of the four things a step can have done to an engine, only an acceptance makes it `BUSY`, only a
completion or a reset makes it `IDLE`, and the one that leaves it `BUSY` leaves its latch. -/
theorem statusChangesByAcceptCompletionOrReset : Obligations.StatusChangesByAcceptCompletionOrReset := by
  intro s t h e before after hbefore hafter
  rcases step_engine_cases h hbefore hafter with rfl | ⟨c, hc, rfl, hin⟩ | ⟨d, i, hin, hidle, hd, rfl⟩ | ⟨hin, rfl⟩
  · simp +contextual
  · simp [(command_eq_some hc).1, hin]
  · simp [hidle, hin, hd]
  · simp [Engine.reset, hin]

/-! ### No result is negative (R163) -/

theorem moveSample_nonneg (d : Depth) (x δ : Int) : 0 ≤ moveSample d x δ := by
  have hclamp := (clampBd_mem d (x - d.bias + δ)).1
  have hbias := (bias_range d).1
  unfold moveSample
  omega

theorem rnd_nonneg {v : Int} (h : 0 ≤ v) (n : Nat) : 0 ≤ rnd v n :=
  Int.ediv_nonneg (by positivity) (by positivity)

/-- No average of the stage is negative. -/
structure Averages.Nonneg (a : Averages) : Prop where
  p : ∀ x ∈ a.p, 0 ≤ x
  q : ∀ x ∈ a.q, 0 ≤ x

/-- An averaging stage that a width does not have. -/
theorem Averages.nonneg_nil : Averages.Nonneg { p := [], q := [] } :=
  ⟨List.forall_mem_nil _, List.forall_mem_nil _⟩

theorem avg6_nonneg (p q : Side) : (avg6 p q).Nonneg := by
  constructor <;>
    simp only [avg6, Side.px, List.forall_mem_cons, List.not_mem_nil, false_imp_iff, implies_true, and_true]
  all_goals and_intros <;> exact rnd_nonneg (by positivity) 3

theorem avg8_nonneg (p q : Side) : (avg8 p q).Nonneg := by
  constructor <;>
    simp only [avg8, Side.px, List.forall_mem_cons, List.not_mem_nil, false_imp_iff, implies_true, and_true]
  all_goals and_intros <;> exact rnd_nonneg (by positivity) 3

theorem avg14_nonneg (p q : Side) : (avg14 p q).Nonneg := by
  constructor <;>
    simp only [avg14, Side.px, List.forall_mem_cons, List.not_mem_nil, false_imp_iff, implies_true, and_true]
  all_goals and_intros <;> exact rnd_nonneg (by positivity) 4

theorem midTier_nonneg (w : Width) (p q : Side) : (midTier w p q).Nonneg := by
  cases w with
  | w4 => exact Averages.nonneg_nil
  | w6 => exact avg6_nonneg p q
  | w8 => exact avg8_nonneg p q
  | w14 => exact avg8_nonneg p q

theorem wideTier_nonneg (w : Width) (p q : Side) : (wideTier w p q).Nonneg := by
  cases w with
  | w14 => exact avg14_nonneg p q
  | _ => exact Averages.nonneg_nil

theorem getD_zero_nonneg {l : List Int} (h : ∀ x ∈ l, 0 ≤ x) (k : Nat) : 0 ≤ l.getD k 0 := by
  rcases Nat.lt_or_ge k l.length with hk | hk
  · rw [List.getD_eq_getElem _ _ hk]
    exact h _ (List.getElem_mem hk)
  · rw [List.getD_eq_default _ _ hk]

/-- The Blender answers one of its four candidates. -/
theorem blendAt_of_candidates {P : Int → Prop} (w : Width) (m : Masks) (k : Nat) {orig f4 mid wide : Int}
    (horig : P orig) (hf4 : P f4) (hmid : P mid) (hwide : P wide) : P (blendAt w m k orig f4 mid wide) := by
  unfold blendAt
  split
  · exact hf4
  all_goals split_ifs <;> assumption

theorem blendP_nonneg (w : Width) (d : Depth) (m : Masks) (p q : Side) (k : Nat) : 0 ≤ blendP w d m p q k := by
  refine blendAt_of_candidates (P := (0 ≤ ·)) w m k (px_nonneg p k) ?_ (getD_zero_nonneg (midTier_nonneg w p q).p k)
    (getD_zero_nonneg (wideTier_nonneg w p q).p k)
  split_ifs <;> exact moveSample_nonneg d _ _

theorem blendQ_nonneg (w : Width) (d : Depth) (m : Masks) (p q : Side) (k : Nat) : 0 ≤ blendQ w d m p q k := by
  refine blendAt_of_candidates (P := (0 ≤ ·)) w m k (px_nonneg q k) ?_ (getD_zero_nonneg (midTier_nonneg w p q).q k)
    (getD_zero_nonneg (wideTier_nonneg w p q).q k)
  split_ifs <;> exact moveSample_nonneg d _ _

/-! ### The working registers after a command (R22, R23, R25, R27) -/

@[simp] theorem work_thr0 (e : Engine) (g : Config) (m : Memory) (c : Cmd) :
    (e.work g m c).thr0 = scaleThresholds c.depth c.par0 := rfl
@[simp] theorem work_thr1 (e : Engine) (g : Config) (m : Memory) (c : Cmd) :
    (e.work g m c).thr1 = scaleThresholds c.depth c.par1 := rfl
@[simp] theorem work_scratch (e : Engine) (g : Config) (m : Memory) (c : Cmd) : (e.work g m c).scratch =
    (List.range (c.nLines g.linesPerSegment)).map fun n => (c.lineAddrs n).map m.sample := rfl

/-- A scratch row is the gathered line, outermost `p` first. -/
theorem map_sample_lineAddrs (m : Memory) (c : Cmd) (n : Nat) :
    (c.lineAddrs n).map m.sample = (gatheredP m c n).reverse ++ gatheredQ m c n := by
  simp [Cmd.lineAddrs, gatheredP, gatheredQ, Function.comp_def]

theorem px_oP_lineResult (cfg : Config) (m : Memory) (c : Cmd) (n : Nat) {k : Nat} (hk : k < c.width.M) :
    (lineResult cfg m c n).oP.px k = resultP cfg m c n k :=
  (px_map_range _ hk).trans (Int.toNat_of_nonneg (blendP_nonneg _ _ _ _ _ k))

theorem px_oQ_lineResult (cfg : Config) (m : Memory) (c : Cmd) (n : Nat) {k : Nat} (hk : k < c.width.M) :
    (lineResult cfg m c n).oQ.px k = resultQ cfg m c n k :=
  (px_map_range _ hk).trans (Int.toNat_of_nonneg (blendQ_nonneg _ _ _ _ _ k))

/-- Settles O39: the engine of a completed command is the one that gathered and computed it, with a line's result in
each line's registers; a result is read back from its register because it is not negative. -/
theorem workingRegistersHoldTheCommand : Obligations.WorkingRegistersHoldTheCommand := by
  intro i s t h
  rw [exec_eq_runCommand] at h
  obtain ⟨e, he, -, rfl⟩ := (runCommand_eq_next_iff _ _ _).mp h
  have hcur : s.cur < s.engines.length := (List.getElem?_eq_some_iff.mp he).1
  refine ⟨(e.work s.cfg s.mem i.cmd).finish, List.getElem?_set_self hcur, rfl, rfl, by simp [work_lines], by simp,
    fun n hn => ?_⟩
  have hline : (e.work s.cfg s.mem i.cmd).finish.lines[n]? = some (lineResult s.cfg s.mem i.cmd n) := by
    simp [work_lines, hn]
  have hrow : (e.work s.cfg s.mem i.cmd).finish.scratch[n]? =
      some ((gatheredP s.mem i.cmd n).reverse ++ gatheredQ s.mem i.cmd n) := by
    simp [hn, map_sample_lineAddrs]
  exact ⟨_, hline, rfl, rfl, rfl, hrow, by simp [lineResult], by simp [lineResult],
    fun k hk => ⟨px_oP_lineResult _ _ _ n hk, px_oQ_lineResult _ _ _ n hk⟩⟩

end Sys2Proof.Machine
end

section
/-! The obligations of 20_memory.md: what every step keeps (R40, R50), two commands in progress on one memory (R50), and
the byte view of a sample (R42). -/

namespace Sys2Proof.Machine

/-! ### A command and the samples outside its footprint (R46, R50) -/

/-- The caller contract asks of the memory only what it holds at the footprint. -/
theorem InContract.of_sample_eq {cfg : Config} {m m' : Memory} {c : Cmd} (h : InContract cfg m c)
    (hs : ∀ a ∈ c.footprint cfg.linesPerSegment, m'.sample a = m.sample a) : InContract cfg m' c :=
  { h with samples := fun a ha => (hs a ha).trans_le (h.samples a ha) }

/-- Inside the contract every store goes to an address of the footprint, read as the number it is. -/
theorem InContract.store_mem_footprint {cfg : Config} {m m' : Memory} {c : Cmd} (h : InContract cfg m c)
    {w : Nat × Sample} (hw : w ∈ commandStores cfg m' c) : (w.1 : Int) ∈ c.footprint cfg.linesPerSegment := by
  obtain ⟨b, hb, hbw⟩ := exists_writeSet_of_mem_commandStores hw
  have hmem := writeSet_subset_footprint hb
  rwa [← hbw, Int.toNat_of_nonneg (h.inside b hmem).1]

/-- A command changes no sample outside its footprint. -/
theorem InContract.sample_commandMemory {cfg : Config} {m : Memory} {c : Cmd} (h : InContract cfg m c) {a : Int}
    (hpos : 0 ≤ a) (ha : a ∉ c.footprint cfg.linesPerSegment) : (commandMemory cfg m c).sample a = m.sample a := by
  refine congrArg BitVec.toNat (Memory.read_writeAll_of_not_mem _ _ _ fun w hw hwa => ha ?_)
  rw [← Int.toNat_of_nonneg hpos, ← hwa]
  exact h.store_mem_footprint hw

/-- What a command stores is a function of the samples of its footprint (R190). -/
theorem commandStores_congr {cfg : Config} {m m' : Memory} {c : Cmd}
    (h : ∀ a ∈ c.footprint cfg.linesPerSegment, m'.sample a = m.sample a) :
    commandStores cfg m' c = commandStores cfg m c := by
  refine List.flatMap_congr fun n hn => ?_
  have hp : gatheredP m' c n = gatheredP m c n := List.map_congr_left fun k hk =>
    h _ (mem_footprint.mpr ⟨n, List.mem_range.mp hn, k, List.mem_range.mp hk, .inl rfl⟩)
  have hq : gatheredQ m' c n = gatheredQ m c n := List.map_congr_left fun k hk =>
    h _ (mem_footprint.mpr ⟨n, List.mem_range.mp hn, k, List.mem_range.mp hk, .inr rfl⟩)
  simp only [resultP, resultQ, lineMasks, hp, hq]

/-! ### Two commands on disjoint footprints (R50) -/

/-- After a list of writes an address reads as written, or as before: nothing else of the memory enters. -/
theorem Memory.read_writeAll_congr {m m' : Memory} (ws : List (Nat × Sample)) {a : Nat} (h : m.read a = m'.read a) :
    (m.writeAll ws).read a = (m'.writeAll ws).read a := by
  induction ws generalizing m m' with
  | nil => exact h
  | cons w ws ih => exact ih (by rw [Memory.read_write, Memory.read_write, h])

/-- Writes to different addresses commute. -/
theorem Memory.writeAll_comm {m : Memory} {ws vs : List (Nat × Sample)} (hm : m.wf)
    (h : ∀ w ∈ ws, ∀ v ∈ vs, w.1 ≠ v.1) : (m.writeAll ws).writeAll vs = (m.writeAll vs).writeAll ws := by
  refine Memory.ext_read (Memory.wf_writeAll _ (Memory.wf_writeAll _ hm))
    (Memory.wf_writeAll _ (Memory.wf_writeAll _ hm)) fun a => ?_
  by_cases ha : ∃ w ∈ ws, w.1 = a
  · obtain ⟨w, hw, rfl⟩ := ha
    have hvs : ∀ v ∈ vs, v.1 ≠ w.1 := fun v hv => (h w hw v hv).symm
    rw [Memory.read_writeAll_of_not_mem _ vs _ hvs]
    exact Memory.read_writeAll_congr ws (Memory.read_writeAll_of_not_mem m vs _ hvs).symm
  · have hws : ∀ w ∈ ws, w.1 ≠ a := fun w hw hwa => ha ⟨w, hw, hwa⟩
    rw [Memory.read_writeAll_of_not_mem _ ws _ hws]
    exact Memory.read_writeAll_congr vs (Memory.read_writeAll_of_not_mem m ws _ hws)

/-- A command on a disjoint footprint leaves what a command stores. -/
theorem commandMemory_commandMemory {cfg : Config} {m : Memory} {c d : Cmd} (hc : InContract cfg m c)
    (hd : InContract cfg m d) (hcd : (c.footprint cfg.linesPerSegment).Disjoint (d.footprint cfg.linesPerSegment)) :
    commandMemory cfg (commandMemory cfg m c) d =
      (m.writeAll (commandStores cfg m c)).writeAll (commandStores cfg m d) := by
  have hstores : commandStores cfg (commandMemory cfg m c) d = commandStores cfg m d :=
    commandStores_congr fun a ha => hc.sample_commandMemory (hd.inside a ha).1 fun hac => hcd hac ha
  rw [commandMemory, hstores, commandMemory]

/-- Two commands on disjoint footprints leave the same memory in either order. -/
theorem commandMemory_comm {cfg : Config} {m : Memory} {c d : Cmd} (hm : m.wf) (hc : InContract cfg m c)
    (hd : InContract cfg m d) (hcd : (c.footprint cfg.linesPerSegment).Disjoint (d.footprint cfg.linesPerSegment)) :
    commandMemory cfg (commandMemory cfg m c) d = commandMemory cfg (commandMemory cfg m d) c := by
  rw [commandMemory_commandMemory hc hd hcd, commandMemory_commandMemory hd hc hcd.symm]
  refine Memory.writeAll_comm hm fun w hw v hv hwv => hcd (hc.store_mem_footprint hw) ?_
  rw [hwv]
  exact hd.store_mem_footprint hv

/-! ### The memory a step leaves (R40) -/

/-- The invariant's two clauses about the memory alone. -/
structure Memory.Legal (cfg : Config) (m : Memory) : Prop where
  wf : m.wf
  listed : ∀ c ∈ m, c.1 < cfg.memSamples

theorem Consistent.legal {s : State} (h : Consistent s) : s.mem.Legal s.cfg := ⟨h.memory, h.listed⟩

theorem Memory.Legal.writeAll {cfg : Config} {m : Memory} {ws : List (Nat × Sample)} (h : m.Legal cfg)
    (hws : ∀ w ∈ ws, w.1 < cfg.memSamples) : (m.writeAll ws).Legal cfg where
  wf := Memory.wf_writeAll ws h.wf
  listed c hc := by
    rcases Memory.mem_writeAll hc with ⟨w, hw, hcw⟩ | hcm
    · exact hcw ▸ hws w hw
    · exact h.listed c hcm

theorem InContract.store_lt {cfg : Config} {m : Memory} {c : Cmd} (h : InContract cfg m c) {w : Nat × Sample}
    (hw : w ∈ commandStores cfg m c) : w.1 < cfg.memSamples :=
  Int.ofNat_lt.mp (h.inside _ (h.store_mem_footprint hw)).2

theorem Memory.Legal.abandon {cfg : Config} {m : Memory} (h : m.Legal cfg) (ctr : Nat) (e : Engine) :
    (abandon cfg ctr m e).Legal cfg := by
  unfold Machine.abandon
  split
  · exact h
  · split
    · exact h
    · rename_i hcheck
      rw [work_stores]
      exact h.writeAll fun w hw => ((checkCommand_eq_none_iff _ _ _).mp hcheck).store_lt (List.mem_filter.mp hw).1

theorem Memory.Legal.foldl_abandon {cfg : Config} {m : Memory} (h : m.Legal cfg) (ctr : Nat) (es : List Engine) :
    (es.foldl (Machine.abandon cfg ctr) m).Legal cfg := by
  induction es generalizing m with
  | nil => exact h
  | cons e es ih => exact ih (h.abandon ctr e)

/-! ### The invariant under each update of the state (R40, R50, R229) -/

/-- The invariant speaks of the parameters, the memory and the engines. -/
theorem Consistent.of_fields_eq {s t : State} (h : Consistent s) (hcfg : t.cfg = s.cfg) (hmem : t.mem = s.mem)
    (heng : t.engines = s.engines) : Consistent t := by
  obtain ⟨cfg, mem, engines, cur, inputs, freeCtr⟩ := t
  cases hcfg
  cases hmem
  cases heng
  exact ⟨h.config, h.memory, h.listed, h.accepted, h.apart⟩

/-- Deasserting `done` changes no command in progress. -/
theorem Consistent.eventState {s : State} (h : Consistent s) : Consistent (eventState s) where
  config := h.config
  memory := h.memory
  listed := h.listed
  accepted e he hbusy := by
    obtain ⟨f, hf, rfl⟩ := List.mem_map.mp he
    exact h.accepted f hf hbusy
  apart := List.pairwise_map.mpr h.apart

/-- Engines at different positions hold disjoint footprints. -/
theorem Consistent.held_disjoint {s : State} (h : Consistent s) {i j : Nat} {e f : Engine} (hij : i ≠ j)
    (he : s.engines[i]? = some e) (hf : s.engines[j]? = some f) :
    (e.held s.cfg.linesPerSegment).Disjoint (f.held s.cfg.linesPerSegment) := by
  have hapart := List.pairwise_iff_getElem.mp h.apart
  obtain ⟨hi, rfl⟩ := List.getElem?_eq_some_iff.mp he
  obtain ⟨hj, rfl⟩ := List.getElem?_eq_some_iff.mp hf
  rcases Nat.lt_or_gt_of_ne hij with hlt | hgt
  · exact fun a hae haf => hapart i j hi hj hlt a hae haf
  · exact fun a hae haf => hapart j i hj hi hgt a haf hae

/-- Replacing one element keeps a symmetric relation pairwise when the new element has it to every old one. -/
theorem pairwise_set {α : Type} {R : α → α → Prop} (hsymm : ∀ x y, R x y → R y x) {x : α} {l : List α}
    (hl : l.Pairwise R) (hx : ∀ y ∈ l, R x y) (i : Nat) : (l.set i x).Pairwise R := by
  induction l generalizing i with
  | nil => exact List.Pairwise.nil
  | cons y l ih =>
    obtain ⟨hy, hl⟩ := List.pairwise_cons.mp hl
    obtain ⟨hxy, hx⟩ := List.forall_mem_cons.mp hx
    cases i with
    | zero => exact List.pairwise_cons.mpr ⟨hx, hl⟩
    | succ i =>
      refine List.pairwise_cons.mpr ⟨fun z hz => ?_, ih hl hx i⟩
      rcases List.mem_or_eq_of_mem_set hz with hz | rfl
      · exact hy z hz
      · exact hsymm _ _ hxy

/-- No held address is negative: it is the address of a sample. -/
theorem Consistent.held_nonneg {s : State} (h : Consistent s) {e : Engine} (he : e ∈ s.engines) {a : Int}
    (ha : a ∈ e.held s.cfg.linesPerSegment) : 0 ≤ a := by
  cases hst : e.st with
  | idle => simp [held_of_idle _ hst] at ha
  | busy =>
    obtain ⟨c, hc, hin⟩ := h.accepted e he hst
    rw [held_of_command _ hc] at ha
    exact (hin.inside a ha).1

/-- The invariant survives a change of the memory outside the held footprints. -/
theorem Consistent.set_mem {s : State} (h : Consistent s) {m : Memory} (hm : m.Legal s.cfg)
    (hheld : ∀ e ∈ s.engines, ∀ a ∈ e.held s.cfg.linesPerSegment, m.sample a = s.mem.sample a) :
    Consistent { s with mem := m } where
  config := h.config
  memory := hm.wf
  listed := hm.listed
  accepted e he hbusy := by
    obtain ⟨c, hc, hin⟩ := h.accepted e he hbusy
    exact ⟨c, hc, hin.of_sample_eq fun a ha => hheld e he a (by rwa [held_of_command _ hc])⟩
  apart := h.apart

/-- The invariant survives the replacement of an engine by one whose command, if it has one in progress, is inside the
contract and holds nothing that another engine holds. -/
theorem Consistent.set_engine {s : State} (h : Consistent s) (e : Nat) {eng : Engine}
    (hacc : eng.st = .busy → ∃ c, eng.command = some c ∧ InContract s.cfg s.mem c)
    (hapart : ∀ f ∈ s.engines, ∀ a ∈ eng.held s.cfg.linesPerSegment, a ∉ f.held s.cfg.linesPerSegment) :
    Consistent { s with engines := s.engines.set e eng } where
  config := h.config
  memory := h.memory
  listed := h.listed
  accepted f hf hbusy := by
    rcases List.mem_or_eq_of_mem_set hf with hf | rfl
    · exact h.accepted f hf hbusy
    · exact hacc hbusy
  apart := pairwise_set (fun _ _ hfg a hag haf => hfg a haf hag) h.apart hapart e

/-- A completion: the engine releases its footprint, and only there has the memory changed. -/
theorem Consistent.commandState {s : State} (h : Consistent s) {e : Engine} {c : Cmd}
    (he : s.engines[s.cur]? = some e) (hc : e.command = some c) (hin : InContract s.cfg s.mem c) :
    Consistent (commandState c s e) := by
  have hreleased : Consistent { s with engines := s.engines.set s.cur (e.work s.cfg s.mem c).finish } :=
    h.set_engine s.cur (fun hbusy => nomatch hbusy) fun f _ a ha => nomatch ha
  refine hreleased.set_mem (h.legal.writeAll fun w hw => hin.store_lt hw) fun f hf a ha => ?_
  obtain ⟨j, hj⟩ := List.mem_iff_getElem?.mp hf
  by_cases hcur : s.cur = j
  · subst hcur
    cases (List.getElem?_set_self (List.getElem?_eq_some_iff.mp he).1).symm.trans hj
    nomatch ha
  · have hj : s.engines[j]? = some f := (List.getElem?_set_ne hcur).symm.trans hj
    refine hin.sample_commandMemory (h.held_nonneg (List.mem_of_getElem? hj) ha) fun hac => ?_
    rw [← held_of_command _ hc] at hac
    exact h.held_disjoint hcur he hj hac ha

/-- A reset: no command is in progress. -/
theorem Consistent.resetEvent {s : State} (h : Consistent s) : Consistent (resetEvent s) where
  config := h.config
  memory := (h.legal.foldl_abandon _ _).wf
  listed := (h.legal.foldl_abandon _ _).listed
  accepted e he hbusy := by
    obtain ⟨f, -, rfl⟩ := List.mem_map.mp he
    cases hbusy
  apart := List.pairwise_map.mpr (List.pairwise_of_forall fun _ _ _ ha => nomatch ha)

/-- An acceptance: the command is inside the contract and nothing of its footprint is held. -/
theorem Consistent.accept {s : State} (h : Consistent s) {e : Nat} {d : Descriptor} {eng : Engine} {i : Instr}
    (hd : decode d = .ok i) (hin : InContract s.cfg s.mem i.cmd)
    (hfree : ∀ a ∈ i.cmd.footprint s.cfg.linesPerSegment, heldBySome s a = false) :
    Consistent { s with engines := s.engines.set e { eng with st := .busy, latch := d } } := by
  have hcmd : Engine.command { eng with st := .busy, latch := d } = some i.cmd := command_of_busy rfl hd
  refine h.set_engine e (fun _ => ⟨_, hcmd, hin⟩) fun f hf a ha => ?_
  rw [held_of_command _ hcmd] at ha
  exact (heldBySome_eq_false_iff s a).mp (hfree a ha) f hf

/-- A host write: a sample of the memory that no command in progress holds. -/
theorem Consistent.write {s : State} (h : Consistent s) {a : Nat} (v : Sample) (ha : a < s.cfg.memSamples)
    (hfree : heldBySome s a = false) : Consistent { s with mem := s.mem.write a v } := by
  have hlegal : (s.mem.write a v).Legal s.cfg :=
    h.legal.writeAll (ws := [(a, v)]) fun w hw => by rwa [List.mem_singleton.mp hw]
  refine h.set_mem hlegal fun e he b hb => ?_
  have hne : b.toNat ≠ a := by
    rintro rfl
    rw [Int.toNat_of_nonneg (h.held_nonneg he hb)] at hfree
    exact (heldBySome_eq_false_iff s b).mp hfree e he hb
  rw [Memory.sample, Memory.read_write, if_neg hne, Memory.sample]

/-- Settles O49, by the five things a step can have done, each of them an update that the invariant survives. -/
theorem stepKeepsInvariant : Obligations.StepKeepsInvariant := by
  intro s t h hstep
  have hevent : Consistent (eventState s) := h.eventState
  rcases step_cases hstep with rfl | ⟨e, eng, c, he, hc, hin, rfl, -⟩ | ⟨e, d, eng, i, -, -, -, hd, hin, hfree, rfl⟩ |
    ⟨a, v, -, ha, hfree, rfl⟩ | ⟨-, rfl⟩
  · exact hevent
  · have hcur : Consistent { eventState s with cur := e } := hevent.of_fields_eq rfl rfl rfl
    exact hcur.commandState he hc hin
  · exact hevent.accept hd hin hfree
  · exact hevent.write v ha hfree
  · exact hevent.resetEvent

/-! ### Two turns in either order (R50, R228) -/

/-- A command in progress is inside the contract. -/
theorem Consistent.inContract {s : State} (h : Consistent s) {e : Nat} {eng : Engine} {c : Cmd}
    (he : s.engines[e]? = some eng) (hc : eng.command = some c) : InContract s.cfg s.mem c := by
  obtain ⟨c', hc', hin⟩ := h.accepted eng (List.mem_of_getElem? he) (command_eq_some hc).1
  cases hc.symm.trans hc'
  exact hin

/-- The turn of an engine completes the command it has in progress. -/
theorem step_turn_eq_next {s : State} (h : Consistent s) {e : Nat} {rest : List Input} {eng : Engine} {c : Cmd}
    (hscript : s.inputs = .turn e :: rest) (he : s.engines[e]? = some eng) (hc : eng.command = some c) :
    step s = .next (commandState c { eventState s with cur := e } { eng with done := false }) := by
  have hevent : (eventState s).engines[e]? = some { eng with done := false } := by simp [he]
  have hstep : step s = engineTurn e (eventState s) := by
    simp only [step, nextEvent, hscript, stepInput, eventState, List.tail_cons]
  rw [hstep, engineTurn_eq_next_iff]
  exact ⟨_, hevent, .inr ⟨c, hc, h.inContract he hc, rfl⟩⟩

/-- Of two turns the second finds its engine as it was, and runs on the memory the first left. -/
theorem step_turn_turn {s : State} (h : Consistent s) {e f : Nat} {rest : List Input} {engE engF : Engine} {c d : Cmd}
    (hscript : s.inputs = .turn e :: .turn f :: rest) (hne : e ≠ f) (he : s.engines[e]? = some engE)
    (hf : s.engines[f]? = some engF) (hc : engE.command = some c) (hd : engF.command = some d) :
    ∃ t u, step s = .next t ∧ step t = .next u ∧ u.mem = commandMemory s.cfg (commandMemory s.cfg s.mem c) d := by
  have hfirst := step_turn_eq_next h hscript he hc
  have hkept : ((eventState s).engines.set e (Engine.work { engE with done := false } s.cfg s.mem c).finish)[f]? =
      some { engF with done := false } := by
    simp [List.getElem?_set_ne hne, hf]
  have hsecond :=
    step_turn_eq_next (stepKeepsInvariant _ _ h hfirst) (rest := rest) (congrArg List.tail hscript) hkept hd
  exact ⟨_, _, hfirst, hsecond, rfl⟩

/-- Settles O51: in either order each turn runs its command on what the other left, and commands on disjoint
footprints commute. -/
theorem concurrentCommandsCommute : Obligations.ConcurrentCommandsCommute := by
  intro s e f rest engE engF h hne he hbusyE hf hbusyF
  obtain ⟨c, hc, hinC⟩ := h.accepted engE (List.mem_of_getElem? he) hbusyE
  obtain ⟨d, hd, hinD⟩ := h.accepted engF (List.mem_of_getElem? hf) hbusyF
  have hscript : ∀ script, Consistent { s with inputs := script } := fun _ => h.of_fields_eq rfl rfl rfl
  obtain ⟨t, u, ht, hu, hmem⟩ := step_turn_turn (hscript (.turn e :: .turn f :: rest)) rfl hne he hf hc hd
  obtain ⟨t', u', ht', hu', hmem'⟩ := step_turn_turn (hscript (.turn f :: .turn e :: rest)) rfl hne.symm hf he hd hc
  have hdisjoint : (c.footprint s.cfg.linesPerSegment).Disjoint (d.footprint s.cfg.linesPerSegment) := by
    have hheld := h.held_disjoint hne he hf
    rwa [held_of_command _ hc, held_of_command _ hd] at hheld
  refine ⟨t, u, t', u', ht, hu, ht', hu', ?_⟩
  calc u.mem = commandMemory s.cfg (commandMemory s.cfg s.mem c) d := hmem
    _ = commandMemory s.cfg (commandMemory s.cfg s.mem d) c := commandMemory_comm h.memory hinC hinD hdisjoint
    _ = u'.mem := hmem'.symm

/-! ### The byte view of a sample (R42) -/

/-- The only byte of a sample at 8 bits is its low byte. -/
theorem toNat_byteAt_d8 (m : Memory) (a : Nat) : (m.byteAt .d8 a).toNat = (m.read a).toNat % 256 := by
  simp [Memory.byteAt, bytesPerSample, Nat.mod_one]

theorem bytesPerSample_of_ne_d8 {d : Depth} (h : d ≠ .d8) : bytesPerSample d = 2 := by
  cases d with
  | d8 => exact absurd rfl h
  | d10 => rfl
  | d12 => rfl

/-- Above 8 bits the even byte of a sample is its low byte. -/
theorem toNat_byteAt_even {d : Depth} (h : d ≠ .d8) (m : Memory) (a : Nat) :
    (m.byteAt d (2 * a)).toNat = (m.read a).toNat % 256 := by
  simp [Memory.byteAt, bytesPerSample_of_ne_d8 h]

/-- Above 8 bits the odd byte of a sample is its high byte. -/
theorem toNat_byteAt_odd {d : Depth} (h : d ≠ .d8) (m : Memory) (a : Nat) :
    (m.byteAt d (2 * a + 1)).toNat = (m.read a).toNat / 256 := by
  have hindex : (2 * a + 1) / 2 = a := by omega
  have hbyte : (m.read a).toNat / 256 < 256 := Nat.div_lt_of_lt_mul (m.read a).isLt
  simp [Memory.byteAt, bytesPerSample_of_ne_d8 h, hindex, Nat.shiftRight_eq_div_pow, Nat.mod_eq_of_lt hbyte]

/-- The high byte of a sample in range has `bd - 8` bits. -/
theorem div_lt_of_le_pmax {d : Depth} {x : Nat} (h : x ≤ d.pmax) : x / 256 < 2 ^ (d.bd - 8) := by
  have hrange : 256 * 2 ^ (d.bd - 8) = d.pmax + 1 := by cases d <;> rfl
  exact Nat.div_lt_of_lt_mul (by omega)

/-- Settles O55: at 8 bits a sample in range is its low byte, above 8 bits it is its low and its high byte. -/
theorem byteViewIsLittleEndian : Obligations.ByteViewIsLittleEndian := by
  refine fun m a => ⟨fun h => ?_, fun d hd h => ⟨?_, ?_⟩⟩
  · rw [toNat_byteAt_d8]
    exact Nat.mod_eq_of_lt (Nat.lt_succ_of_le h)
  · rw [toNat_byteAt_even hd, toNat_byteAt_odd hd]
    exact Nat.mod_add_div _ _
  · rw [toNat_byteAt_odd hd]
    exact div_lt_of_le_pmax h

end Sys2Proof.Machine
end

section
/-! The obligations of 30_encoding.md: the descriptor codec (R62 to R73), and the command port from acceptance to `done`
(R61). -/

namespace Sys2Proof

/-! ### The field codes (R63 to R66, R69) -/

theorem Width.code_lt (w : Width) : w.code < 4 := by cases w <;> decide
theorem Orient.code_lt (o : Orient) : o.code < 2 := by cases o <;> decide
theorem Depth.code_lt (d : Depth) : d.code < 4 := by cases d <;> decide

@[simp] theorem Width.ofCode_code (w : Width) : Width.ofCode w.code = w := by cases w <;> rfl
@[simp] theorem Orient.ofCode_code (o : Orient) : Orient.ofCode o.code = o := by cases o <;> rfl
@[simp] theorem Depth.ofCode_code (d : Depth) : Depth.ofCode d.code = some d := by cases d <;> rfl

theorem Width.code_ofCode {v : Nat} (h : v < 4) : (Width.ofCode v).code = v := by
  interval_cases v <;> rfl

theorem Orient.code_ofCode {v : Nat} (h : v < 2) : (Orient.ofCode v).code = v := by
  interval_cases v <;> rfl

theorem Depth.code_of_ofCode {v : Nat} {d : Depth} (h : Depth.ofCode v = some d) : d.code = v := by
  unfold Depth.ofCode at h
  split at h <;> cases h <;> rfl

/-- Code 3 is the one depth code that is reserved. -/
theorem Depth.ofCode_eq_none_iff {v : Nat} (h : v < 4) : Depth.ofCode v = none ↔ v = 3 := by
  interval_cases v <;> decide

theorem Width.total_eq_getD_code (w : Width) : w.total = [4, 6, 8, 14].getD w.code 0 := by cases w <;> rfl
theorem Orient.eq_ite_code (o : Orient) : o = if o.code = 0 then .horizontal else .vertical := by cases o <;> rfl
theorem Depth.bd_eq_getD_code (d : Depth) : d.bd = [8, 10, 12].getD d.code 0 := by cases d <;> rfl

/-- Sign extension undoes reduction modulo `2^32` on signed 32-bit numbers. -/
theorem sext32_emod {x : Int} (h : strideWf x = true) : sext32 (x % 2 ^ 32).toNat = x := by
  simp only [strideWf, Bool.and_eq_true, decide_eq_true_eq] at h
  unfold sext32
  split <;> omega

theorem sext32_emod_toNat {v : Nat} (h : v < 2 ^ 32) : (sext32 v % 2 ^ 32).toNat = v := by
  unfold sext32
  split <;> omega

theorem strideWf_sext32 {v : Nat} (h : v < 2 ^ 32) : strideWf (sext32 v) = true := by
  simp only [strideWf, Bool.and_eq_true, decide_eq_true_eq]
  unfold sext32
  split <;> omega

/-! ### Fields of a descriptor (R62) -/

theorem field_lt (D : Descriptor) (lo len : Nat) : field D lo len < 2 ^ len := Nat.mod_lt _ (Nat.two_pow_pos len)

theorem field_eq_toNat_extractLsb' (D : Descriptor) (lo len : Nat) : field D lo len = (D.extractLsb' lo len).toNat := by
  simp [field, Nat.shiftRight_eq_div_pow]

theorem extractLsb'_eq_iff (D : Descriptor) (lo len : Nat) (v : BitVec len) :
    D.extractLsb' lo len = v ↔ field D lo len = v.toNat := by
  rw [field_eq_toNat_extractLsb', BitVec.toNat_inj]

theorem getLsbD_eq_false_iff (D : Descriptor) (n : Nat) : D.getLsbD n = false ↔ field D n 1 = 0 := by
  simp [field, BitVec.getLsbD, Nat.testBit_eq_decide_div_mod_eq]

theorem strideField_eq_toInt (D : Descriptor) : strideField D = (D.extractLsb' 64 32).toInt := by
  rw [strideField, field_eq_toNat_extractLsb', BitVec.toInt_eq_toNat_cond]
  unfold sext32
  split <;> split <;> omega

/-- The fields of R62 make up the descriptor. -/
theorem toNat_eq_sum_fields (D : Descriptor) :
    D.toNat = field D 0 2 + field D 2 1 * 2 ^ 2 + field D 3 1 * 2 ^ 3 + field D 4 2 * 2 ^ 4 + field D 6 10 * 2 ^ 6
      + field D 16 24 * 2 ^ 16 + field D 40 24 * 2 ^ 40 + field D 64 32 * 2 ^ 64 + field D 96 32 * 2 ^ 96 := by
  have := D.isLt
  unfold field
  omega

theorem bits_par0Field (D : Descriptor) : (par0Field D).bits = field D 16 24 := by
  simp only [Params.bits, par0Field, field]
  omega

theorem bits_par1Field (D : Descriptor) : (par1Field D).bits = field D 40 24 := by
  simp only [Params.bits, par1Field, field]
  omega

/-! ### Well-formed triples and commands -/

theorem Params.wf_iff (p : Params) : p.wf = true ↔ p.blimit < 256 ∧ p.limit < 256 ∧ p.thresh < 256 := by
  simp [Params.wf, and_assoc]

theorem Params.bits_lt {p : Params} (h : p.wf = true) : p.bits < 2 ^ 24 := by
  obtain ⟨hb, hl, ht⟩ := p.wf_iff.mp h
  unfold Params.bits
  omega

theorem Params.bits_eq_zero_iff (p : Params) : p.bits = 0 ↔ p = { blimit := 0, limit := 0, thresh := 0 } := by
  obtain ⟨b, l, t⟩ := p
  simp only [Params.bits, Params.mk.injEq]
  omega

/-- A triple of bytes is determined by its 24 bits. -/
theorem Params.bits_inj {p q : Params} (hp : p.wf = true) (hq : q.wf = true) (h : p.bits = q.bits) : p = q := by
  obtain ⟨hpb, hpl, hpt⟩ := p.wf_iff.mp hp
  obtain ⟨hqb, hql, hqt⟩ := q.wf_iff.mp hq
  unfold Params.bits at h
  have hb : p.blimit = q.blimit := by omega
  have hl : p.limit = q.limit := by omega
  have ht : p.thresh = q.thresh := by omega
  cases p
  cases q
  exact Params.mk.injEq .. ▸ ⟨hb, hl, ht⟩

theorem par0Field_wf (D : Descriptor) : (par0Field D).wf = true :=
  (Params.wf_iff _).mpr ⟨field_lt D 16 8, field_lt D 24 8, field_lt D 32 8⟩

theorem par1Field_wf (D : Descriptor) : (par1Field D).wf = true :=
  (Params.wf_iff _).mpr ⟨field_lt D 40 8, field_lt D 48 8, field_lt D 56 8⟩

/-- The family of `Laws.CommandRecord` as one rule for every command. -/
theorem commandRecord (i : Instr) : Laws.CommandRecord.Statement i := by
  cases i with
  | lpfH4 d b s p => exact Laws.CommandRecord.lpfH4 d b s p
  | lpfH6 d b s p => exact Laws.CommandRecord.lpfH6 d b s p
  | lpfH8 d b s p => exact Laws.CommandRecord.lpfH8 d b s p
  | lpfH14 d b s p => exact Laws.CommandRecord.lpfH14 d b s p
  | lpfV4 d b s p => exact Laws.CommandRecord.lpfV4 d b s p
  | lpfV6 d b s p => exact Laws.CommandRecord.lpfV6 d b s p
  | lpfV8 d b s p => exact Laws.CommandRecord.lpfV8 d b s p
  | lpfV14 d b s p => exact Laws.CommandRecord.lpfV14 d b s p
  | lpfH4D d b s p q => exact Laws.CommandRecord.lpfH4D d b s p q
  | lpfH6D d b s p q => exact Laws.CommandRecord.lpfH6D d b s p q
  | lpfH8D d b s p q => exact Laws.CommandRecord.lpfH8D d b s p q
  | lpfH14D d b s p q => exact Laws.CommandRecord.lpfH14D d b s p q
  | lpfV4D d b s p q => exact Laws.CommandRecord.lpfV4D d b s p q
  | lpfV6D d b s p q => exact Laws.CommandRecord.lpfV6D d b s p q
  | lpfV8D d b s p q => exact Laws.CommandRecord.lpfV8D d b s p q
  | lpfV14D d b s p q => exact Laws.CommandRecord.lpfV14D d b s p q

theorem singleWf_of_fields {base : Nat} {stride : Int} {p : Params} (hb : baseWf base = true)
    (hs : strideWf stride = true) (hp : p.wf = true) : singleWf base stride p = true := by
  rw [singleWf, hb, hs, hp]; rfl

theorem dualWf_of_fields {base : Nat} {stride : Int} {p q : Params} (hb : baseWf base = true)
    (hs : strideWf stride = true) (hp : p.wf = true) (hq : q.wf = true) : dualWf base stride p q = true := by
  rw [dualWf, singleWf_of_fields hb hs hp, hq]; rfl

/-- A command is well formed when the fields of its record are. -/
theorem wf_of_record {i : Instr} (hb : baseWf i.cmd.base = true) (hs : strideWf i.cmd.stride = true)
    (hp : i.cmd.par0.wf = true) (hq : i.cmd.par1.wf = true) : i.wf = true := by
  cases i with
  | lpfH4 | lpfH6 | lpfH8 | lpfH14 | lpfV4 | lpfV6 | lpfV8 | lpfV14 => exact singleWf_of_fields hb hs hp
  | lpfH4D | lpfH6D | lpfH8D | lpfH14D | lpfV4D | lpfV6D | lpfV8D | lpfV14D => exact dualWf_of_fields hb hs hp hq

/-- The record of the command an opcode names; a single one has no second triple. -/
theorem cmd_instrOf (dual : Bool) (o : Orient) (w : Width) (d : Depth) (base : Nat) (stride : Int) (p q : Params) :
    (instrOf dual o w d base stride p q).cmd =
      { width := w, orient := o, dual := dual, depth := d, par0 := p,
        par1 := if dual then q else { blimit := 0, limit := 0, thresh := 0 }, stride := stride, base := base } := by
  cases dual <;> cases o <;> cases w <;> rfl

/-! ### The descriptor that carries a command (R62, R71) -/

/-- Descriptor `D` carries record `c`: each field of R62 holds the operand it is for, and `RSV0` is zero. -/
structure Carries (D : Descriptor) (c : Cmd) : Prop where
  width : field D 0 2 = c.width.code
  orient : field D 2 1 = c.orient.code
  dual : field D 3 1 = if c.dual then 1 else 0
  depth : field D 4 2 = c.depth.code
  reserved : field D 6 10 = 0
  par0 : par0Field D = c.par0
  par1 : par1Field D = c.par1
  stride : strideField D = c.stride
  base : baseField D = c.base

/-- The fields bound what they carry. -/
theorem Carries.wf {D : Descriptor} {i : Instr} (h : Carries D i.cmd) : i.wf = true := by
  apply wf_of_record
  · rw [← h.base]
    exact decide_eq_true (field_lt D 96 32)
  · rw [← h.stride]
    exact strideWf_sext32 (field_lt D 64 32)
  · rw [← h.par0]
    exact par0Field_wf D
  · rw [← h.par1]
    exact par1Field_wf D

/-- The field table written as a sum is the descriptor it was read from. -/
theorem Carries.bits_eq {D : Descriptor} {c : Cmd} (h : Carries D c) : c.bits = D.toNat := by
  rw [toNat_eq_sum_fields D, Cmd.bits, ← h.width, ← h.orient, ← h.dual, ← h.depth, ← h.par0, ← h.par1,
    ← h.stride, ← h.base, h.reserved, bits_par0Field, bits_par1Field, strideField,
    sext32_emod_toNat (field_lt D 64 32), baseField]
  rfl

theorem Carries.encode_eq {D : Descriptor} {i : Instr} (h : Carries D i.cmd) : encode i = D := by
  rw [encode, h.bits_eq, BitVec.ofNat_toNat, BitVec.setWidth_eq]

/-- Encoding places every operand in its field: no summand of the field table overflows into the next. -/
theorem carries_encode {i : Instr} (h : i.wf = true) : Carries (encode i) i.cmd := by
  obtain ⟨hbase, hstride, hpar0, hpar1, -, -⟩ := commandRecord i h
  have hw := i.cmd.width.code_lt
  have ho := i.cmd.orient.code_lt
  have hd := i.cmd.depth.code_lt
  have hdual : (if i.cmd.dual then 1 else 0) < 2 := by split <;> decide
  have hp := Params.bits_lt hpar0
  have hq := Params.bits_lt hpar1
  have hs : (i.cmd.stride % 2 ^ 32).toNat < 2 ^ 32 := by omega
  have hb : i.cmd.base < 2 ^ 32 := of_decide_eq_true hbase
  have hbits : (encode i).toNat = i.cmd.bits := by
    rw [encode, BitVec.toNat_ofNat]
    unfold Cmd.bits
    omega
  unfold Cmd.bits at hbits
  exact {
    width := by unfold field; omega
    orient := by unfold field; omega
    dual := by unfold field; omega
    depth := by unfold field; omega
    reserved := by unfold field; omega
    par0 := Params.bits_inj (par0Field_wf _) hpar0 (by rw [bits_par0Field]; unfold field; omega)
    par1 := Params.bits_inj (par1Field_wf _) hpar1 (by rw [bits_par1Field]; unfold field; omega)
    stride := by
      have hfield : field (encode i) 64 32 = (i.cmd.stride % 2 ^ 32).toNat := by unfold field; omega
      rw [strideField, hfield, sext32_emod hstride]
    base := by unfold baseField field; omega }

/-- Decoding a descriptor that carries a command finds no reserved field and reads the command back. -/
theorem Carries.decode_eq {D : Descriptor} {i : Instr} (h : Carries D i.cmd) : decode D = .ok i := by
  obtain ⟨-, -, -, -, hsingle, hopcode⟩ := commandRecord i h.wf
  have hdual : decide (field D 3 1 ≠ 0) = i.cmd.dual := by
    rw [h.dual]
    cases i.cmd.dual <;> rfl
  have hparams : ¬(field D 3 1 = 0 ∧ field D 40 24 ≠ 0) := by
    rintro ⟨hzero, hpar1⟩
    have : i.cmd.dual = false := by rw [← hdual, hzero]; rfl
    rw [← bits_par1Field, h.par1, hsingle this] at hpar1
    exact hpar1 rfl
  unfold decode
  simp only [h.reserved, h.depth, Depth.ofCode_code, hparams, hdual, h.orient, h.width, Orient.ofCode_code,
    Width.ofCode_code, h.base, h.stride, h.par0, h.par1, hopcode, ne_eq, not_true_eq_false, if_false]

/-- What decodes has no reserved field, and is read field by field. -/
theorem carries_of_decode {D : Descriptor} {i : Instr} (h : decode D = .ok i) : Carries D i.cmd := by
  unfold decode at h
  split at h; · cases h
  rename_i hreserved
  split at h; · cases h
  rename_i d hdepth
  split at h; · cases h
  rename_i hparams
  cases h
  rw [cmd_instrOf]
  exact {
    width := (Width.code_ofCode (field_lt D 0 2)).symm
    orient := (Orient.code_ofCode (field_lt D 2 1)).symm
    dual := by
      have := field_lt D 3 1
      simp only [decide_eq_true_eq]
      split <;> omega
    depth := (Depth.code_of_ofCode hdepth).symm
    reserved := not_not.mp hreserved
    par0 := rfl
    par1 := by
      simp only [decide_eq_true_eq]
      split
      · rfl
      · rename_i hsingle
        rw [← Params.bits_eq_zero_iff, bits_par1Field]
        exact not_not.mp fun hne => hparams ⟨not_not.mp hsingle, hne⟩
    stride := rfl
    base := rfl }

/-- R71, R73: a descriptor decodes to exactly the command it carries. -/
theorem decode_eq_ok_iff (D : Descriptor) (i : Instr) : decode D = .ok i ↔ Carries D i.cmd :=
  ⟨carries_of_decode, Carries.decode_eq⟩

/-- Settles O2: encoding makes a descriptor that carries the command, and decoding reads what is carried. -/
theorem decodeOfEncodeIsTheCommand : Obligations.DecodeOfEncodeIsTheCommand := fun i h =>
  (decode_eq_ok_iff (encode i) i).mpr (carries_encode h)

/-- Settles O3: what decodes carries its command, whose operands then fit their fields and make up the descriptor. -/
theorem encodeOfDecodeIsTheDescriptor : Obligations.EncodeOfDecodeIsTheDescriptor := fun D i h =>
  have hcarries : Carries D i.cmd := (decode_eq_ok_iff D i).mp h
  ⟨hcarries.wf, hcarries.encode_eq⟩

/-! ### Decoding in terms of the descriptor's bits (R73) -/

theorem decode_of_reserved_bits {D : Descriptor} (h : field D 6 10 ≠ 0) : decode D = .error .bits := if_pos h

theorem decode_of_reserved_depth {D : Descriptor} (h : field D 6 10 = 0) (hd : field D 4 2 = 3) :
    decode D = .error .depth := by
  simp only [decode, h, (Depth.ofCode_eq_none_iff (field_lt D 4 2)).mpr hd, ne_eq, not_true_eq_false, if_false]

theorem exists_depth {D : Descriptor} (hd : field D 4 2 ≠ 3) : ∃ d, Depth.ofCode (field D 4 2) = some d :=
  Option.ne_none_iff_exists'.mp fun h => hd ((Depth.ofCode_eq_none_iff (field_lt D 4 2)).mp h)

theorem decode_of_reserved_params {D : Descriptor} (h : field D 6 10 = 0) (hd : field D 4 2 ≠ 3)
    (hp : field D 3 1 = 0 ∧ field D 40 24 ≠ 0) : decode D = .error .params := by
  obtain ⟨d, hd⟩ := exists_depth hd
  simp only [decode, h, hd, if_pos hp, ne_eq, not_true_eq_false, if_false]

theorem exists_decode_eq_ok {D : Descriptor} (h : field D 6 10 = 0) (hd : field D 4 2 ≠ 3)
    (hp : ¬(field D 3 1 = 0 ∧ field D 40 24 ≠ 0)) : ∃ i, decode D = .ok i := by
  obtain ⟨d, hd⟩ := exists_depth hd
  simp only [decode, h, hd, if_neg hp, ne_eq, not_true_eq_false, if_false, Except.ok.injEq, exists_eq']

/-- Settles O4: the checks are made on the bits of `RSV0`, `DEPTH`, `DUAL` and the second triple, in R73's order; where
none applies the descriptor decodes, so it carries its command. -/
theorem decodingReadsTheFieldTable : Obligations.DecodingReadsTheFieldTable := by
  intro D
  simp only [ne_eq, extractLsb'_eq_iff, getLsbD_eq_false_iff, ← field_eq_toNat_extractLsb', ← strideField_eq_toInt]
  refine ⟨decode_of_reserved_bits, decode_of_reserved_depth,
    fun h hd hsingle hpar1 => decode_of_reserved_params h hd ⟨hsingle, hpar1⟩, fun h hd hsingle => ?_⟩
  obtain ⟨i, hi⟩ := exists_decode_eq_ok h hd fun hp => hp.2 (hsingle hp.1)
  have hc : Carries D i.cmd := (decode_eq_ok_iff D i).mp hi
  refine ⟨i, hi, ?_, ?_, ?_, ?_, ?_, ?_, ?_, fun _ => ?_, hc.stride.symm, hc.base.symm⟩
  · rw [hc.width, Width.total_eq_getD_code]
  · rw [hc.orient, ← Orient.eq_ite_code]
  · rw [hc.dual, Cmd.segments]
    cases i.cmd.dual <;> rfl
  · rw [hc.depth, Depth.bd_eq_getD_code]
  · rw [← hc.par0]; rfl
  · rw [← hc.par0]; rfl
  · rw [← hc.par0]; rfl
  · rw [← hc.par1]
    exact ⟨rfl, rfl, rfl⟩

/-- Settles O1: decoding is evaluated on the five words. -/
theorem specDescriptorsDecode : Obligations.SpecDescriptorsDecode := by
  unfold Obligations.SpecDescriptorsDecode
  decide

end Sys2Proof

namespace Sys2Proof.Machine

/-! ### A turn on the command port (R61, R256) -/

theorem heldBySome_eventState (s : State) (a : Int) : heldBySome (eventState s) a = heldBySome s a := by
  simp only [heldBySome, eventState_engines, eventState_cfg, List.any_map]
  rfl

theorem getElem?_clearDone {s : State} {e : Nat} {eng : Engine} (h : s.engines[e]? = some eng) :
    (clearDone s).engines[e]? = some { eng with done := false } := by simp [h]

theorem getElem?_eventState {s : State} {e : Nat} {eng : Engine} (h : s.engines[e]? = some eng) :
    (eventState s).engines[e]? = some { eng with done := false } := getElem?_clearDone h

theorem step_cons {s : State} {i : Input} {rest : List Input} (h : s.inputs = i :: rest) :
    step s = stepInput i (eventState s) := by
  simp only [step, nextEvent, h, eventState, List.tail_cons]

theorem step_nil {s : State} (h : s.inputs = []) : step s = idleStep (clearDone s) := by
  simp only [step, nextEvent, h]

theorem engineTurn_eq_exec {s : State} {e : Nat} {eng : Engine} {i : Instr} (he : s.engines[e]? = some eng)
    (hbusy : eng.st = .busy) (hi : decode eng.latch = .ok i) : engineTurn e s = exec i { s with cur := e } := by
  simp only [engineTurn, he, hbusy, hi]

theorem firstBusy_eq_some_of_lowest {es : List Engine} {e : Nat} {eng : Engine} (he : es[e]? = some eng)
    (hbusy : eng.st = .busy) (hidle : ∀ j < e, ∀ f, es[j]? = some f → f.st = .idle) : firstBusy es = some e := by
  induction es generalizing e with
  | nil => cases he
  | cons x es ih =>
    cases e with
    | zero =>
      cases he
      simp only [firstBusy, hbusy]
    | succ e =>
      have hx : x.st = .idle := hidle 0 (Nat.succ_pos e) x rfl
      have htail : firstBusy es = some e := ih he fun j hj f hf => hidle (j + 1) (Nat.succ_lt_succ hj) f hf
      simp only [firstBusy, hx, htail, Option.map_some]

/-- Settles O42: a turn, or the machine left to itself, hands the latched command to `exec`. -/
theorem stepRunsTheLatchedCommand : Obligations.StepRunsTheLatchedCommand := by
  refine ⟨fun s e rest eng i hscript he hbusy hi => ?_, fun s e eng i hscript he hbusy hi hlowest => ?_⟩
  · rw [step_cons hscript, stepInput, engineTurn_eq_exec (getElem?_eventState he) hbusy hi, eventState, hscript]
    rfl
  · have hfirst : firstBusy (clearDone s).engines = some e := by
      refine firstBusy_eq_some_of_lowest (getElem?_clearDone he) hbusy fun j hj f hf => ?_
      rw [clearDone_engines, List.getElem?_map] at hf
      obtain ⟨g, hg, rfl⟩ := Option.map_eq_some_iff.mp hf
      exact hlowest j hj g hg
    rw [step_nil hscript, ← engineTurn_eq_exec (getElem?_clearDone he) hbusy hi]
    simp only [idleStep, hfirst]

/-- Settles O50: the command in progress is inside the contract, so the turn completes it; the other engines lose only
their `done`. -/
theorem acceptedCommandAlwaysCompletes : Obligations.AcceptedCommandAlwaysCompletes := by
  intro s e rest eng h hscript he hbusy
  obtain ⟨c, hc, -⟩ := h.accepted eng (List.mem_of_getElem? he) hbusy
  have hlt : e < (eventState s).engines.length := (List.getElem?_eq_some_iff.mp (getElem?_eventState he)).1
  refine ⟨_, step_turn_eq_next h hscript he hc, _, List.getElem?_set_self hlt, rfl, rfl, fun j f hj hf => ?_⟩
  exact ⟨_, (List.getElem?_set_ne hj.symm).trans (getElem?_eventState hf), rfl, rfl⟩

/-- The state after engine `e` has accepted descriptor `d`. -/
def acceptState (s : State) (e : Nat) (d : Descriptor) (eng : Engine) : State :=
  { eventState s with engines := (eventState s).engines.set e { eng with done := false, st := .busy, latch := d } }

theorem step_issue_eq_next {s : State} {e : Nat} {d : Descriptor} {rest : List Input} {eng : Engine} {i : Instr}
    (hscript : s.inputs = .issue e d :: rest) (he : s.engines[e]? = some eng) (hidle : eng.st = .idle)
    (hd : decode d = .ok i) (hin : InContract s.cfg s.mem i.cmd)
    (hfree : ∀ a ∈ i.cmd.footprint s.cfg.linesPerSegment, heldBySome s a = false) :
    step s = .next (acceptState s e d eng) := by
  rw [step_cons hscript, stepInput, issue_eq_next_iff]
  exact ⟨_, i, getElem?_eventState he, hidle, hd, hin,
    fun a ha => (heldBySome_eventState s a).trans (hfree a ha), rfl⟩

theorem step_turn_of_inContract {s : State} {e : Nat} {rest : List Input} {eng : Engine} {c : Cmd}
    (hscript : s.inputs = .turn e :: rest) (he : s.engines[e]? = some eng) (hc : eng.command = some c)
    (hin : InContract s.cfg s.mem c) :
    step s = .next (commandState c { eventState s with cur := e } { eng with done := false }) := by
  rw [step_cons hscript, stepInput, engineTurn_eq_next_iff]
  exact ⟨_, getElem?_eventState he, .inr ⟨c, hc, hin, rfl⟩⟩

/-- Settles O43: the descriptor decodes to the command it encodes, so the engine accepts it; no sample has changed when
its turn comes, so the command is still inside the contract and completes. -/
theorem issuedCommandRunsToDone : Obligations.IssuedCommandRunsToDone := by
  intro s e rest eng i hscript hwf he hidle hin hfree
  have hdecode : decode (encode i) = .ok i := decodeOfEncodeIsTheCommand i hwf
  have hlt : e < (eventState s).engines.length := (List.getElem?_eq_some_iff.mp (getElem?_eventState he)).1
  have haccepted : (acceptState s e (encode i) eng).engines[e]? =
      some { eng with done := false, st := .busy, latch := encode i } := List.getElem?_set_self hlt
  have hcommand : Engine.command { eng with done := false, st := .busy, latch := encode i } = some i.cmd :=
    command_of_busy rfl hdecode
  have hissue := step_issue_eq_next hscript he hidle hdecode hin hfree
  have hturn : (acceptState s e (encode i) eng).inputs = .turn e :: rest := congrArg List.tail hscript
  have hexec : exec i { s with cur := e } = .next (commandState i.cmd { s with cur := e } eng) :=
    (exec_eq_runCommand i _).trans (runCommand_of_ready he hin)
  have hlt' := (List.getElem?_eq_some_iff.mp (getElem?_eventState haccepted)).1
  exact ⟨_, _, _, hissue, rfl, ⟨_, haccepted, rfl, rfl⟩,
    step_turn_of_inContract hturn haccepted hcommand hin, hexec, rfl, congrArg List.tail hturn, _,
    List.getElem?_set_self hlt', rfl, rfl⟩

/-! ### The pulse of `done` (R61) -/

theorem done_eq_false_of_eventState {s : State} {e : Nat} {eng : Engine} (h : (eventState s).engines[e]? = some eng) :
    eng.done = false := by
  rw [eventState_engines, List.getElem?_map] at h
  obtain ⟨f, -, rfl⟩ := Option.map_eq_some_iff.mp h
  rfl

/-- After an event that has touched engine `e` alone, no other engine asserts `done`. -/
theorem eq_of_done_of_set {s : State} {e j : Nat} {x eng : Engine}
    (h : ((eventState s).engines.set e x)[j]? = some eng) (hdone : eng.done = true) : j = e := by
  by_contra hne
  rw [List.getElem?_set_ne (Ne.symm hne)] at h
  exact Bool.false_ne_true ((done_eq_false_of_eventState h).symm.trans hdone)

/-- At most one engine asserts `done` after a step. -/
theorem exists_eq_of_step_done {s t : State} (h : step s = .next t) :
    ∃ e, ∀ (j : Nat) (eng : Engine), t.engines[j]? = some eng → eng.done = true → j = e := by
  have hnone : ∀ (j : Nat) (eng : Engine), (eventState s).engines[j]? = some eng → eng.done = true → j = 0 :=
    fun j eng hj hdone => absurd ((done_eq_false_of_eventState hj).symm.trans hdone) Bool.false_ne_true
  rcases step_cases h with rfl | ⟨e, eng, c, -, -, -, rfl, -⟩ | ⟨e, d, eng, i, -, -, -, -, -, -, rfl⟩ |
    ⟨a, v, -, -, -, rfl⟩ | ⟨-, rfl⟩
  · exact ⟨0, hnone⟩
  · exact ⟨e, fun _ _ => eq_of_done_of_set⟩
  · exact ⟨e, fun _ _ => eq_of_done_of_set⟩
  · exact ⟨0, hnone⟩
  · refine ⟨0, fun j eng hj hdone => ?_⟩
    rw [resetEvent_engines, List.getElem?_map] at hj
    obtain ⟨f, -, rfl⟩ := Option.map_eq_some_iff.mp hj
    cases hdone

/-- Settles O45: of the four things a step can have done to an engine, only a completion asserts `done`, and it is the
only one that takes the engine from `BUSY` to `IDLE` without a reset. -/
theorem donePulsesOnlyAtCompletion : Obligations.DonePulsesOnlyAtCompletion := by
  intro s t h
  obtain ⟨-, hlength, -⟩ := stepKeepsParameters s t h
  refine ⟨hlength, fun e before after hbefore hafter =>
    ⟨?_, fun hdone j other hne hother => ?_⟩⟩
  · rcases step_engine_cases h hbefore hafter with rfl | ⟨c, hc, rfl, hin⟩ | ⟨d, i, -, -, -, rfl⟩ | ⟨hin, rfl⟩
    · exact iff_of_false nofun fun ⟨_, hbusy, hidle⟩ => nomatch hbusy.symm.trans hidle
    · have hhead : s.inputs.head? ≠ some .reset := by
        rcases hin with hin | hin <;> simp [hin]
      exact iff_of_true rfl ⟨hhead, (command_eq_some hc).1, rfl⟩
    · exact iff_of_false nofun nofun
    · exact iff_of_false nofun fun hreset => hreset.1 hin
  · obtain ⟨f, hf⟩ := exists_eq_of_step_done h
    exact Bool.eq_false_iff.mpr fun hdone' =>
      hne ((hf j other hother hdone').trans (hf e after hafter hdone).symm)

end Sys2Proof.Machine
end

section
/-! The obligations of 40_mask_engine.md: the scaled thresholds (R81), and the four masks of a line (R82 to R91). -/

namespace Sys2Proof.Machine

/-! ### Scaled thresholds (R81) -/

theorem scale_eq_shiftLeft (d : Depth) (v : Nat) : v * 2 ^ d.sh = v <<< (d.bd - 8) := (Nat.shiftLeft_eq v _).symm

theorem scale_byte_le (d : Depth) {v : Nat} (h : v < 256) : v * 2 ^ d.sh ≤ 255 * 2 ^ (d.bd - 8) :=
  Nat.mul_le_mul_right _ (Nat.le_of_lt_succ h)

/-- Settles O10: a scaled byte is the byte shifted left by `bd - 8`, and scaling keeps the order. -/
theorem thresholdsAreScaledBytes : Obligations.ThresholdsAreScaledBytes := by
  intro d p hp
  obtain ⟨hb, hl, ht⟩ := p.wf_iff.mp hp
  exact ⟨scale_eq_shiftLeft d _, scale_eq_shiftLeft d _, scale_eq_shiftLeft d _, by cases d <;> rfl,
    scale_byte_le d hb, scale_byte_le d hl, scale_byte_le d ht⟩

/-! ### Steps and spreads of a line (R82, R84, R86) -/

@[simp] theorem maskEngine_mask (f : Bool) (w : Width) (t : Thresholds) (p q : Side) :
    (maskEngine f w t p q).mask = maskOf w t p q := rfl
@[simp] theorem maskEngine_hev (f : Bool) (w : Width) (t : Thresholds) (p q : Side) :
    (maskEngine f w t p q).hev = hevOf t p q := rfl
@[simp] theorem maskEngine_flat (f : Bool) (w : Width) (t : Thresholds) (p q : Side) :
    (maskEngine f w t p q).flat = flatOf f w t p q := rfl
@[simp] theorem maskEngine_flat2 (f : Bool) (w : Width) (t : Thresholds) (p q : Side) :
    (maskEngine f w t p q).flat2 = flat2Of f w t p q := rfl

theorem lineStep_le_iff (p q : Side) (k : Nat) (b : Int) :
    lineStep p q k ≤ b ↔ absdiff (p.px k) (p.px (k - 1)) ≤ b ∧ absdiff (q.px k) (q.px (k - 1)) ≤ b := max_le_iff

theorem lineSpread_le_iff (p q : Side) (k : Nat) (b : Int) :
    lineSpread p q k ≤ b ↔ absdiff (p.px k) (p.px 0) ≤ b ∧ absdiff (q.px k) (q.px 0) ≤ b := max_le_iff

/-! ### `hev` (R82) -/

theorem hevOf_iff (t : Thresholds) (p q : Side) :
    hevOf t p q = true ↔
      (t.th : Int) < absdiff (p.px 1) (p.px 0) ∨ (t.th : Int) < absdiff (q.px 1) (q.px 0) := by
  rw [hevOf, decide_eq_true_iff]
  exact lt_max_iff

/-- Settles O11: `hev` compares the larger inner step, and reads `TH` alone of the thresholds. -/
theorem highVarianceIsAStrictInnerStep : Obligations.HighVarianceIsAStrictInnerStep := fun _ _ _ _ t _ p q =>
  ⟨hevOf_iff t p q, fun hth => by simp only [maskEngine_hev, hevOf, hth]⟩

/-! ### The arguments present at a width (R84, R86) -/

/-- The indices 2 and 3 are tested where the width has them. -/
theorem forall_outer_index_iff (P : Nat → Prop) (K : Nat) :
    (∀ k, 2 ≤ k → k < K → k ≤ 3 → P k) ↔ (2 < K → P 2) ∧ (3 < K → P 3) := by
  refine ⟨fun h => ⟨fun hK => h 2 le_rfl hK (by decide), fun hK => h 3 (by decide) hK le_rfl⟩,
    fun ⟨h2, h3⟩ k hk hK hk3 => ?_⟩
  obtain rfl | rfl : k = 2 ∨ k = 3 := by omega
  · exact h2 hK
  · exact h3 hK

/-- Every width has index 1, so a test that starts there adds it to the tests of the outer indices. -/
theorem forall_index_iff (P : Nat → Prop) (w : Width) :
    (∀ k, 1 ≤ k → k < w.K → k ≤ 3 → P k) ↔ P 1 ∧ ∀ k, 2 ≤ k → k < w.K → k ≤ 3 → P k := by
  refine ⟨fun h => ⟨h 1 le_rfl (by cases w <;> decide) (by decide), fun k hk => h k (Nat.le_of_succ_le hk)⟩,
    fun ⟨h1, h⟩ k hk hK hk3 => ?_⟩
  rcases hk.eq_or_lt with rfl | hk
  · exact h1
  · exact h k hk hK hk3

theorem largestStep_le_iff (w : Width) (p q : Side) (b : Int) :
    largestStep w p q ≤ b ↔ ∀ k, 1 ≤ k → k < w.K → k ≤ 3 → lineStep p q k ≤ b := by
  rw [forall_index_iff, forall_outer_index_iff]
  cases w with
  | w4 => simp [largestStep]
  | w6 => simp [largestStep]
  | w8 => simp [largestStep]
  | w14 => simp [largestStep]

/-! ### `mask` (R83, R84, R85) -/

theorem maskOf_iff (w : Width) (t : Thresholds) (p q : Side) :
    maskOf w t p q = true ↔
      2 * absdiff (p.px 0) (q.px 0) + absdiff (p.px 1) (q.px 1) / 2 ≤ t.bl ∧ largestStep w p q ≤ t.li := by
  simp [maskOf, blimitTerm, limitTerm, asr_one]

theorem lineStep_one_le_of_maskOf {w : Width} {t : Thresholds} {p q : Side} (h : maskOf w t p q = true) :
    lineStep p q 1 ≤ t.li := by
  rw [maskOf_iff, largestStep_le_iff, forall_index_iff] at h
  obtain ⟨-, hinner, -⟩ := h
  exact hinner

/-- Settles O12: the largest step that the width has is within `LI` when each of them is, on both sides. -/
theorem maskHoldsExactlyWithinLimits : Obligations.MaskHoldsExactlyWithinLimits := fun _ w t p q => by
  simp only [maskEngine_mask, maskOf_iff, largestStep_le_iff, lineStep_le_iff]

/-! ### `flat` (R86, R91) -/

/-- A bound is a natural number, so the zero that stands for absent inner arguments is within it. -/
theorem innerSpread_le_iff (f : Bool) (p q : Side) (b : Nat) :
    innerSpread f p q ≤ b ↔ (f = true → lineSpread p q 1 ≤ b) := by
  cases f with
  | false => simp [innerSpread]
  | true => simp [innerSpread]

theorem flatOf_iff (f : Bool) (w : Width) (t : Thresholds) (p q : Side) :
    flatOf f w t p q = true ↔
      w ≠ .w4 ∧ maskOf w t p q = true ∧ (f = true → lineSpread p q 1 ≤ t.ft) ∧
      ∀ k, 2 ≤ k → k < w.K → k ≤ 3 → lineSpread p q k ≤ t.ft := by
  rw [forall_outer_index_iff, ← innerSpread_le_iff]
  cases w with
  | w4 => simp [flatOf]
  | w6 => simp [flatOf]
  | w8 => simp [flatOf]
  | w14 => simp [flatOf]

/-- Settles O13, by the first index that `FLAT_INCLUDES_P1Q1` selects. -/
theorem flatHoldsExactlyWithinBound : Obligations.FlatHoldsExactlyWithinBound := fun f w t p q => by
  simp only [maskEngine_flat, maskEngine_mask, flatOf_iff, ← lineSpread_le_iff]
  cases f with
  | false => simp
  | true => simp [forall_index_iff]

/-- The second reading of `flat` adds the inner step to the first (R91). -/
theorem flatOf_true_iff (w : Width) (t : Thresholds) (p q : Side) :
    flatOf true w t p q = true ↔ flatOf false w t p q = true ∧ lineSpread p q 1 ≤ t.ft := by
  simp only [flatOf_iff]
  tauto

theorem maskOf_of_flatOf {f : Bool} {w : Width} {t : Thresholds} {p q : Side} (h : flatOf f w t p q = true) :
    maskOf w t p q = true := by
  obtain ⟨-, hmask, -⟩ := (flatOf_iff f w t p q).mp h
  exact hmask

/-- Settles O16: the second reading adds the inner step to the tests of the first, and `mask` bounds that step. -/
theorem flatReadingsDifferExactlyOnInnerJumps : Obligations.FlatReadingsDifferExactlyOnInnerJumps := by
  intro w t p q
  change flatOf true w t p q ≠ flatOf false w t p q ↔
    flatOf false w t p q = true ∧ (t.ft : Int) < lineSpread p q 1 ∧ lineStep p q 1 ≤ t.li
  rw [Ne, Bool.eq_iff_iff, flatOf_true_iff, and_iff_left_iff_imp, Classical.not_imp, not_le]
  exact and_congr_right fun hflat => (and_iff_left (lineStep_one_le_of_maskOf (maskOf_of_flatOf hflat))).symm

/-! ### `flat2` (R87) -/

theorem flat2Of_iff (f : Bool) (w : Width) (t : Thresholds) (p q : Side) :
    flat2Of f w t p q = true ↔
      w = .w14 ∧ flatOf f w t p q = true ∧ ∀ k, 4 ≤ k → k ≤ 6 → lineSpread p q k ≤ t.ft := by
  cases w with
  | w4 => simp [flat2Of]
  | w6 => simp [flat2Of]
  | w8 => simp [flat2Of]
  | w14 =>
    simp only [flat2Of, Bool.and_eq_true, decide_eq_true_eq, max_le_iff, true_and]
    refine and_congr_right fun _ => ⟨fun ⟨h6, h5, h4⟩ k hlo hhi => ?_,
      fun h => ⟨h 6 (by decide) le_rfl, h 5 (by decide) (by decide), h 4 le_rfl (by decide)⟩⟩
    obtain rfl | rfl | rfl : k = 4 ∨ k = 5 ∨ k = 6 := by omega
    · exact h4
    · exact h5
    · exact h6

/-- Settles O14, at width 14 by the outer spreads on both sides. -/
theorem flatTwoHoldsExactlyWithinBound : Obligations.FlatTwoHoldsExactlyWithinBound := fun f w t p q => by
  simp only [maskEngine_flat2, maskEngine_flat, flat2Of_iff, lineSpread_le_iff]

/-! ### The tiers (R90) -/

theorem flatOf_of_flat2Of {f : Bool} {w : Width} {t : Thresholds} {p q : Side} (h : flat2Of f w t p q = true) :
    flatOf f w t p q = true := by
  obtain ⟨-, hflat, -⟩ := (flat2Of_iff f w t p q).mp h
  exact hflat

/-- Settles O15: each tier is a conjunction with the one below it. Three lines show `hev` with a flat tier, `hev` where
the inner step is beyond `LI`, and `flat2` on two constant sides without `hev`. -/
theorem flatnessTiersImplyMask : Obligations.FlatnessTiersImplyMask := by
  refine ⟨fun f w t p q => ⟨flatOf_of_flat2Of, maskOf_of_flatOf, fun hmask => ?_⟩, ?_, ?_, ?_⟩
  · have hflat : flatOf f w t p q = false := Bool.eq_false_iff.mpr fun h =>
      Bool.eq_false_iff.mp hmask (maskOf_of_flatOf h)
    exact ⟨hflat, Bool.eq_false_iff.mpr fun h => Bool.eq_false_iff.mp hflat (flatOf_of_flat2Of h)⟩
  · exact ⟨.w6, { bl := 255, li := 20, th := 3, ft := 1 }, [10, 15, 10], [12, 12, 12], by decide⟩
  · exact ⟨.w4, { bl := 255, li := 20, th := 3, ft := 1 }, [10, 40], [12, 12], by decide⟩
  · exact ⟨.w14, { bl := 255, li := 20, th := 3, ft := 1 }, List.replicate 7 10, List.replicate 7 20, by decide⟩

end Sys2Proof.Machine
end

section
/-! The obligations of 41_filter4.md: when Filter4 leaves a line alone (R107, R108) and the range of its outputs
(R109). -/

namespace Sys2Proof.Machine

/-! ### A moved sample (R105, R107) -/

theorem moveSample_le_pmax (d : Depth) (x δ : Int) : moveSample d x δ ≤ d.pmax := by
  obtain ⟨-, hclamp⟩ := clampBd_mem d (x - d.bias + δ)
  obtain ⟨-, hmax⟩ := bias_range d
  unfold moveSample
  omega

theorem moveSample_mem (d : Depth) (x δ : Int) : 0 ≤ moveSample d x δ ∧ moveSample d x δ ≤ d.pmax :=
  ⟨moveSample_nonneg d x δ, moveSample_le_pmax d x δ⟩

/-- A sample stays where it is only if the clamp absorbs the whole move: at the end of the range it is moved beyond. -/
theorem moveSample_eq_self_iff {d : Depth} {x : Nat} (h : x ≤ d.pmax) (δ : Int) :
    moveSample d x δ = x ↔ (0 < δ → x = d.pmax) ∧ (δ < 0 → x = 0) := by
  obtain ⟨hmin, hmax⟩ := bias_range d
  unfold moveSample clampBd
  omega

@[simp] theorem moveSample_zero {d : Depth} {x : Nat} (h : x ≤ d.pmax) : moveSample d x 0 = x := by
  simp [moveSample_eq_self_iff h]

/-! ### The signs of the steps (R104, R106) -/

/-- The divisor of R104 lies in the signed range of every depth, on both sides of zero. -/
theorem signedRange_contains_eight (d : Depth) : d.smin ≤ -8 ∧ 8 ≤ d.smax := by cases d <;> decide

theorem asr_clampBd_pos_iff (d : Depth) (v : Int) : 0 < asr (clampBd d v) 3 ↔ 8 ≤ v := by
  obtain ⟨hmin, hmax⟩ := signedRange_contains_eight d
  rw [asr_three, clampBd]
  omega

theorem asr_clampBd_neg_iff (d : Depth) (v : Int) : asr (clampBd d v) 3 < 0 ↔ v < 0 := by
  obtain ⟨hmin, hmax⟩ := signedRange_contains_eight d
  rw [asr_three, clampBd]
  omega

theorem filter1_pos_iff (d : Depth) (adj : Int) : 0 < filter1 d adj ↔ 4 ≤ adj := by
  rw [filter1, asr_clampBd_pos_iff]; omega

theorem filter1_neg_iff (d : Depth) (adj : Int) : filter1 d adj < 0 ↔ adj < -4 := by
  rw [filter1, asr_clampBd_neg_iff]; omega

theorem filter2_pos_iff (d : Depth) (adj : Int) : 0 < filter2 d adj ↔ 4 < adj := by
  rw [filter2, asr_clampBd_pos_iff]; omega

theorem filter2_neg_iff (d : Depth) (adj : Int) : filter2 d adj < 0 ↔ adj ≤ -4 := by
  rw [filter2, asr_clampBd_neg_iff]; omega

theorem filter1_eq_zero {d : Depth} {adj : Int} (hlo : -4 ≤ adj) (hhi : adj < 4) : filter1 d adj = 0 :=
  le_antisymm (not_lt.mp fun h => absurd ((filter1_pos_iff d adj).mp h) (not_le.mpr hhi))
    (not_lt.mp fun h => absurd ((filter1_neg_iff d adj).mp h) (not_lt.mpr hlo))

@[simp] theorem sideFilter_of_hev (d : Depth) (f1 : Int) : sideFilter d true f1 = 0 := rfl

@[simp] theorem sideFilter_zero (d : Depth) (hev : Bool) : sideFilter d hev 0 = 0 := by
  cases hev with
  | false => cases d <;> rfl
  | true => rfl

/-! ### `adj` of a line (R102, R103) -/

@[simp] theorem lineAdjust_without_mask (d : Depth) (hev : Bool) (p1 p0 q0 q1 : Int) :
    lineAdjust d false hev p1 p0 q0 q1 = 0 := rfl

@[simp] theorem baseFilter_without_hev (d : Depth) (ps1 qs1 : Int) : baseFilter d false ps1 qs1 = 0 := rfl

theorem baseFilter_mem (d : Depth) (hev : Bool) (ps1 qs1 : Int) :
    d.smin ≤ baseFilter d hev ps1 qs1 ∧ baseFilter d hev ps1 qs1 ≤ d.smax := by
  cases hev with
  | false =>
    obtain ⟨hmin, hmax⟩ := signedRange_contains_eight d
    rw [baseFilter_without_hev]
    omega
  | true => exact clampBd_mem d _

/-- The bias cancels in the difference of the inner samples. -/
theorem lineAdjust_of_mask (d : Depth) (hev : Bool) (p1 p0 q0 q1 : Int) :
    lineAdjust d true hev p1 p0 q0 q1 =
      clampBd d (baseFilter d hev (p1 - d.bias) (q1 - d.bias) + 3 * (q0 - p0)) := by
  simp [lineAdjust, adjust]

/-- Across the steepest falling edge three times the step outweighs any `base_filter`. -/
theorem lineAdjust_neg_of_falling {d : Depth} {p0 q0 : Nat} (hp0 : p0 = d.pmax) (hq0 : q0 = 0) (hev : Bool)
    (p1 q1 : Int) : lineAdjust d true hev p1 p0 q0 q1 < 0 := by
  obtain ⟨-, hbase⟩ := baseFilter_mem d hev (p1 - d.bias) (q1 - d.bias)
  obtain ⟨hmin, hmax⟩ := signedRange_contains_eight d
  obtain ⟨hbmin, hbmax⟩ := bias_range d
  rw [lineAdjust_of_mask, clampBd]
  omega

theorem lineAdjust_pos_of_rising {d : Depth} {p0 q0 : Nat} (hp0 : p0 = 0) (hq0 : q0 = d.pmax) (hev : Bool)
    (p1 q1 : Int) : 0 < lineAdjust d true hev p1 p0 q0 q1 := by
  obtain ⟨hbase, -⟩ := baseFilter_mem d hev (p1 - d.bias) (q1 - d.bias)
  obtain ⟨hmin, hmax⟩ := signedRange_contains_eight d
  obtain ⟨hbmin, hbmax⟩ := bias_range d
  rw [lineAdjust_of_mask, clampBd]
  omega

/-- Without `hev`, `adj` inside the signed range is a multiple of 3. -/
theorem lineAdjust_without_hev_ne_four (d : Depth) (p1 p0 q0 q1 : Int) :
    lineAdjust d true false p1 p0 q0 q1 ≠ 4 := by
  obtain ⟨hmin, hmax⟩ := signedRange_contains_eight d
  rw [lineAdjust_of_mask, baseFilter_without_hev, clampBd]
  omega

/-! ### Filter4 on a line (R107 to R109) -/

/-- Settles O19: each output is a moved sample. -/
theorem filterFourOutputsAreSamples : Obligations.FilterFourOutputsAreSamples := fun d _ _ _ _ _ _ =>
  ⟨moveSample_mem d _ _, moveSample_mem d _ _, moveSample_mem d _ _, moveSample_mem d _ _⟩

/-- Settles O20: with `hev` the outer samples are moved by 0. -/
theorem highVarianceKeepsOuterSamples : Obligations.HighVarianceKeepsOuterSamples := by
  intro d mask p1 p0 q0 q1 hp1 hq1
  exact ⟨moveSample_zero hp1, moveSample_zero hq1⟩

section
variable {d : Depth} {mask hev : Bool} {p1 p0 q0 q1 : Nat}

/-- The inner samples stay only if the ends of the range absorb their moves. -/
theorem filter4_keeps_inner_iff (hp0 : p0 ≤ d.pmax) (hq0 : q0 ≤ d.pmax) :
    (filter4 d mask hev p1 p0 q0 q1).p0 = p0 ∧ (filter4 d mask hev p1 p0 q0 q1).q0 = q0 ↔
      ((4 < lineAdjust d mask hev p1 p0 q0 q1 → p0 = d.pmax) ∧ (lineAdjust d mask hev p1 p0 q0 q1 ≤ -4 → p0 = 0)) ∧
      ((lineAdjust d mask hev p1 p0 q0 q1 < -4 → q0 = d.pmax) ∧ (4 ≤ lineAdjust d mask hev p1 p0 q0 q1 → q0 = 0)) := by
  simp only [filter4, moveSample_eq_self_iff hp0, moveSample_eq_self_iff hq0, filter2_pos_iff, filter2_neg_iff,
    neg_pos, neg_lt_zero, filter1_pos_iff, filter1_neg_iff]

/-- Where the side step is 0, by `hev` or because `filter1` is, the outer samples stay. -/
theorem filter4_keeps_outer (hp1 : p1 ≤ d.pmax) (hq1 : q1 ≤ d.pmax)
    (h : hev = true ∨ filter1 d (lineAdjust d mask hev p1 p0 q0 q1) = 0) :
    (filter4 d mask hev p1 p0 q0 q1).p1 = p1 ∧ (filter4 d mask hev p1 p0 q0 q1).q1 = q1 := by
  rcases h with rfl | h
  · exact highVarianceKeepsOuterSamples d mask p1 p0 q0 q1 hp1 hq1
  · simp [filter4, h, hp1, hq1]

theorem filter4_eq_self_iff :
    filter4 d mask hev p1 p0 q0 q1 = { p1 := p1, p0 := p0, q0 := q0, q1 := q1 } ↔
      ((filter4 d mask hev p1 p0 q0 q1).p1 = p1 ∧ (filter4 d mask hev p1 p0 q0 q1).q1 = q1) ∧
      (filter4 d mask hev p1 p0 q0 q1).p0 = p0 ∧ (filter4 d mask hev p1 p0 q0 q1).q0 = q0 := by
  rw [filter4, Filter4Out.mk.injEq]
  tauto

end

/-- Settles O17: without `mask` `adj` is 0, which moves no sample. -/
theorem filterFourWithoutMaskIsIdentity : Obligations.FilterFourWithoutMaskIsIdentity := by
  intro d hev p1 p0 q0 q1 hp1 hp0 hq0 hq1
  have hadj : lineAdjust d false hev p1 p0 q0 q1 = 0 := lineAdjust_without_mask d hev _ _ _ _
  refine filter4_eq_self_iff.mpr ⟨filter4_keeps_outer hp1 hq1 (.inr ?_), (filter4_keeps_inner_iff hp0 hq0).mpr ?_⟩
  · exact filter1_eq_zero (by omega) (by omega)
  · omega

/-- Settles O21. If the inner samples stay, `adj` lies in `[-4, 4]`: beyond it both ends of the range would have to
absorb a move, on an edge so steep that `adj` has the other sign. At `adj = -4` only `p0` moves; at `adj = 4` only `q0`
does, under the `hev` without which `adj` is a multiple of 3. -/
theorem filterFourFixesExactlySmallAdjustments : Obligations.FilterFourFixesExactlySmallAdjustments := by
  intro d hev p1 p0 q0 q1 hp1 hp0 hq0 hq1 adj
  rw [filter4_eq_self_iff, filter4_keeps_inner_iff hp0 hq0]
  constructor
  · rintro ⟨-, ⟨hp0max, hp0zero⟩, hq0max, hq0zero⟩
    have hhi : adj ≤ 4 := not_lt.mp fun h =>
      have hneg : adj < 0 := lineAdjust_neg_of_falling (hp0max h) (hq0zero h.le) hev p1 q1
      by omega
    have hlo : -4 ≤ adj := not_lt.mp fun h =>
      have hpos : 0 < adj := lineAdjust_pos_of_rising (hp0zero h.le) (hq0max h) hev p1 q1
      by omega
    have hfour (h : adj = 4) : hev = true := by
      cases hev with
      | false => exact absurd h (lineAdjust_without_hev_ne_four d _ _ _ _)
      | true => rfl
    rcases (by omega : (-3 ≤ adj ∧ adj ≤ 3) ∨ adj = -4 ∨ adj = 4) with h | h | h
    · exact .inl h
    · exact .inr (.inl ⟨h, hp0zero h.le⟩)
    · exact .inr (.inr ⟨h, hq0zero h.ge, hfour h⟩)
  · intro h
    have hside : hev = true ∨ filter1 d adj = 0 := by
      rcases h with ⟨hlo, hhi⟩ | ⟨hadj, -⟩ | ⟨-, -, hhev⟩
      · exact .inr (filter1_eq_zero (by omega) (by omega))
      · exact .inr (filter1_eq_zero (by omega) (by omega))
      · exact .inl hhev
    exact ⟨filter4_keeps_outer hp1 hq1 hside, by omega⟩

end Sys2Proof.Machine
end

section
/-! The obligation of 42_filter6_filter8.md: the kernel form of an average (R116) and the weight tables it generates
(R117, R120, 43_filter14.md R136). -/

namespace Sys2Proof.Machine

/-! ### The kernel form and its mirror image (R116) -/

/-- What tap `j` of the width's kernel adds to the sum of the average centred on position `i`. -/
def kernelTap (w : Width) (p q : Side) (i j : Nat) : Int :=
  (kernel w).getD j 0 * lineAt w.K p q (min (i + j - (kernel w).length / 2) (2 * w.K - 1))

theorem kernelAvg_eq_rnd_sum (w : Width) (p q : Side) (i : Nat) :
    kernelAvg w p q i = rnd (∑ j ∈ Finset.range (kernel w).length, kernelTap w p q i j) (kernelShift w) := rfl

theorem kernel_length_sub_one (w : Width) : (kernel w).length - 1 = 2 * ((kernel w).length / 2) := by
  cases w <;> rfl

theorem kernel_palindrome (w : Width) :
    ∀ j < (kernel w).length, (kernel w).getD ((kernel w).length - 1 - j) 0 = (kernel w).getD j 0 := by
  cases w <;> decide

theorem lineAt_mirror {K i : Nat} (p q : Side) (h : i < 2 * K) : lineAt K q p (2 * K - 1 - i) = lineAt K p q i := by
  unfold lineAt
  rcases Nat.lt_or_ge i K with hi | hi
  · rw [if_neg (by omega), if_pos hi, show 2 * K - 1 - i - K = K - 1 - i by omega]
  · rw [if_pos (by omega), if_neg (by omega), show K - 1 - (2 * K - 1 - i) = i - K by omega]

theorem kernelTap_mirror {w : Width} {i j : Nat} (p q : Side) (hi : i < 2 * w.K) (hj : j < (kernel w).length) :
    kernelTap w q p (2 * w.K - 1 - i) ((kernel w).length - 1 - j) = kernelTap w p q i j := by
  have hlen := kernel_length_sub_one w
  rw [kernelTap, kernel_palindrome w j hj, kernelTap, ← lineAt_mirror p q (by omega)]
  congr 2
  omega

/-- The kernels are symmetric, so swapping the sides of a line mirrors its averages. -/
theorem kernelAvg_mirror {w : Width} {i : Nat} (p q : Side) (hi : i < 2 * w.K) :
    kernelAvg w q p (2 * w.K - 1 - i) = kernelAvg w p q i := by
  rw [kernelAvg_eq_rnd_sum, kernelAvg_eq_rnd_sum, ← Finset.sum_range_reflect]
  exact congrArg (rnd · _) (Finset.sum_congr rfl fun j hj => kernelTap_mirror p q hi (Finset.mem_range.mp hj))

/-! ### The rows of the tables (R117, R120, R136) -/

/-- The averaging stage that the width's kernel generates; width 4 has none. -/
def kernelStage (w : Width) (p q : Side) : Averages :=
  match w with
  | .w4 => { p := [], q := [] }
  | .w6 => avg6 p q
  | .w8 => avg8 p q
  | .w14 => avg14 p q

/-- The `q` rows of a table are its `p` rows with the sides swapped. -/
theorem kernelStage_mirror (w : Width) (p q : Side) : (kernelStage w p q).q = (kernelStage w q p).p := by
  cases w with
  | w4 => rfl
  | w6 | w8 | w14 =>
    simp only [kernelStage, avg6, avg8, avg14]
    ring_nf

theorem kernelStage_p_eq_kernelAvg {w : Width} {k : Nat} (p q : Side) (hw : w ≠ .w4) (hk : k < w.M) :
    (kernelStage w p q).p.getD k 0 = kernelAvg w p q (w.K - 1 - k) := by
  cases w with
  | w4 => contradiction
  | w6 | w8 | w14 =>
    rw [Width.M] at hk
    interval_cases k
    all_goals
      refine congrArg (rnd · _) ?_
      simp [kernel, lineAt, Width.K, Width.total, List.range_succ]
      ring

theorem kernelStage_q_eq_kernelAvg {w : Width} {k : Nat} (p q : Side) (hw : w ≠ .w4) (hk : k < w.M) :
    (kernelStage w p q).q.getD k 0 = kernelAvg w p q (w.K + k) := by
  have hK : w.M ≤ w.K := by cases w <;> decide
  have hpos : w.K - 1 - k = 2 * w.K - 1 - (w.K + k) := by omega
  rw [kernelStage_mirror, kernelStage_p_eq_kernelAvg q p hw hk, hpos, kernelAvg_mirror p q (by omega)]

/-- Settles O23: the kernel generates the `p` rows of each table, and the `q` rows as their mirror image. -/
theorem kernelFormGeneratesTheWeightTables : Obligations.KernelFormGeneratesTheWeightTables := by
  have hrows {w : Width} (hw : w ≠ .w4) (p q : Side) : ∀ k < w.M,
      (kernelStage w p q).p.getD k 0 = kernelAvg w p q (w.K - 1 - k) ∧
      (kernelStage w p q).q.getD k 0 = kernelAvg w p q (w.K + k) := fun _ hk =>
    ⟨kernelStage_p_eq_kernelAvg p q hw hk, kernelStage_q_eq_kernelAvg p q hw hk⟩
  intro p q
  exact ⟨hrows (w := .w6) nofun p q, hrows (w := .w8) nofun p q, hrows (w := .w14) nofun p q⟩

end Sys2Proof.Machine
end

section
/-! The obligations of 44_blender.md: which tier gives a result (R156 to R159), and what `hev` changes on a flat line
(R160). -/

namespace Sys2Proof.Machine

/-! ### The selection at one index (R156 to R159) -/

section
variable {w : Width} {m : Masks} {k : Nat}

/-- Without a flatness tier Filter4 gives the inner two indices, and the others keep the original sample. -/
theorem blendAt_of_not_flat (hflat : m.flat = false) (hflat2 : m.flat2 = false) (hk : k < w.M)
    (orig f4 mid wide : Int) : blendAt w m k orig f4 mid wide = if k < 2 then f4 else orig := by
  cases w with
  | w4 => exact (if_pos hk).symm
  | w6 =>
    have hinner : k < 2 := hk
    simp [blendAt, hflat, hinner]
  | w8 => simp [blendAt, hflat]
  | w14 =>
    rcases Nat.lt_or_ge k 2 with hinner | houter
    · simp [blendAt, hflat, hflat2, hinner, Nat.lt_succ_of_lt hinner]
    · simp [blendAt, hflat, hflat2, Nat.not_lt.mpr houter]

/-- The Filter4 results stand at the indices 0 and 1. -/
theorem ite_inner_index (k : Nat) (f0 f1 orig : Int) :
    (if k < 2 then if k = 0 then f0 else f1 else orig) = if k = 0 then f0 else if k = 1 then f1 else orig := by
  match k with
  | 0 => rfl
  | 1 => rfl
  | k + 2 => simp

theorem blendP_of_not_flat (hflat : m.flat = false) (hflat2 : m.flat2 = false) (hk : k < w.M) (d : Depth)
    (p q : Side) : blendP w d m p q k =
      if k = 0 then (lineFilter4 d m p q).p0 else if k = 1 then (lineFilter4 d m p q).p1 else p.px k :=
  (blendAt_of_not_flat hflat hflat2 hk _ _ _ _).trans (ite_inner_index k _ _ _)

theorem blendQ_of_not_flat (hflat : m.flat = false) (hflat2 : m.flat2 = false) (hk : k < w.M) (d : Depth)
    (p q : Side) : blendQ w d m p q k =
      if k = 0 then (lineFilter4 d m p q).q0 else if k = 1 then (lineFilter4 d m p q).q1 else q.px k :=
  (blendAt_of_not_flat hflat hflat2 hk _ _ _ _).trans (ite_inner_index k _ _ _)

/-- On a flat line the averages and the original sample are the only candidates. -/
theorem blendAt_of_flat (hw : w ≠ .w4) (hflat : m.flat = true) (k : Nat) (orig f4 mid wide : Int) :
    blendAt w m k orig f4 mid wide =
      if w = .w14 then if m.flat2 then wide else if k < 3 then mid else orig else mid := by
  cases w with
  | w4 => contradiction
  | w6 => simp [blendAt, hflat]
  | w8 => simp [blendAt, hflat]
  | w14 => simp [blendAt, hflat]

/-- Below `flat2` the middle average reaches index 2; of the written indices only width 14 has others. -/
theorem blendAt_of_middle_tier (hw : w ≠ .w4) (hflat : m.flat = true) (hflat2 : m.flat2 = false) (hk : k < w.M)
    (orig f4 mid wide : Int) : blendAt w m k orig f4 mid wide = if k < 3 then mid else orig := by
  rw [blendAt_of_flat hw hflat]
  cases w with
  | w4 => contradiction
  | w6 => exact (if_pos (Nat.lt_succ_of_lt hk)).symm
  | w8 => exact (if_pos hk).symm
  | w14 => simp [hflat2]

end

theorem midTier_eq_ite {w : Width} (hw : w ≠ .w4) (p q : Side) :
    midTier w p q = if w = .w6 then avg6 p q else avg8 p q := by
  cases w with
  | w4 => contradiction
  | w6 | w8 | w14 => rfl

theorem ne_w4_of_flatOf {f : Bool} {w : Width} {t : Thresholds} {p q : Side} (h : flatOf f w t p q = true) :
    w ≠ .w4 := by
  obtain ⟨hw, -⟩ := (flatOf_iff f w t p q).mp h
  exact hw

theorem eq_w14_of_flat2Of {f : Bool} {w : Width} {t : Thresholds} {p q : Side} (h : flat2Of f w t p q = true) :
    w = .w14 := by
  obtain ⟨hw, -⟩ := (flat2Of_iff f w t p q).mp h
  exact hw

/-! ### The four classes of a line (R159) -/

/-- Where the inner two results are the original samples, so is the result at every index. -/
theorem ite_px_eq_px (l : Side) (k : Nat) :
    (if k = 0 then l.px 0 else if k = 1 then l.px 1 else l.px k) = l.px k := by
  split_ifs with h0 h1
  · rw [h0]
  · rw [h1]
  · rfl

theorem lineFilter4_without_mask {d : Depth} {m : Masks} {p q : Side} (hp : ∀ k, p.getD k 0 ≤ d.pmax)
    (hq : ∀ k, q.getD k 0 ≤ d.pmax) (hmask : m.mask = false) :
    lineFilter4 d m p q = { p1 := p.px 1, p0 := p.px 0, q0 := q.px 0, q1 := q.px 1 } := by
  rw [lineFilter4, hmask]
  exact filterFourWithoutMaskIsIdentity d m.hev _ _ _ _ (hp 1) (hp 0) (hq 0) (hq 1)

/-- Settles O24: the masks of each class select its candidate at one index. Without `mask` the candidate is Filter4's,
which then answers the original samples. -/
theorem finestTrueTierIsSelected : Obligations.FinestTrueTierIsSelected := by
  intro f w d t p q hp hq m f4 k hk
  obtain ⟨htiers, -⟩ := flatnessTiersImplyMask
  obtain ⟨hflat_of_flat2, -, hunmasked⟩ := htiers f w t p q
  refine ⟨fun hmask => ?_, fun _ hflat => ?_, fun hflat hflat2 => ?_, fun hflat2 => ?_⟩
  · obtain ⟨hflat, hflat2⟩ := hunmasked hmask
    rw [blendP_of_not_flat hflat hflat2 hk, blendQ_of_not_flat hflat hflat2 hk,
      lineFilter4_without_mask hp hq hmask]
    exact ⟨ite_px_eq_px p k, ite_px_eq_px q k⟩
  · have hflat2 : m.flat2 = false := Bool.eq_false_iff.mpr fun h => Bool.eq_false_iff.mp hflat (hflat_of_flat2 h)
    exact ⟨blendP_of_not_flat hflat hflat2 hk d p q, blendQ_of_not_flat hflat hflat2 hk d p q⟩
  · have hw : w ≠ .w4 := ne_w4_of_flatOf hflat
    rw [← midTier_eq_ite hw]
    exact ⟨blendAt_of_middle_tier hw hflat hflat2 hk _ _ _ _, blendAt_of_middle_tier hw hflat hflat2 hk _ _ _ _⟩
  · obtain rfl : w = .w14 := eq_w14_of_flat2Of hflat2
    exact ⟨if_pos hflat2, if_pos hflat2⟩

/-! ### `hev` on a flat line (R160) -/

/-- Of the masks, `hev` alone reads `TH`. -/
theorem maskEngine_with_th (f : Bool) (w : Width) (t : Thresholds) (th : Nat) (p q : Side) :
    maskEngine f w { t with th := th } p q =
      { maskEngine f w t p q with hev := hevOf { t with th := th } p q } := rfl

/-- The selection does not read `hev`, and on a flat line it does not take the Filter4 result. -/
theorem blendAt_with_hev_of_flat {w : Width} {m : Masks} (hw : w ≠ .w4) (hflat : m.flat = true) (hev : Bool)
    (k : Nat) (orig f4 f4' mid wide : Int) :
    blendAt w { m with hev := hev } k orig f4' mid wide = blendAt w m k orig f4 mid wide := by
  rw [blendAt_of_flat hw hflat, blendAt_of_flat (m := { m with hev := hev }) hw hflat]

/-- Settles O25: `TH` reaches a result only through `hev`, and `hev` only through Filter4. -/
theorem highVarianceDoesNotGateAverages : Obligations.HighVarianceDoesNotGateAverages := by
  intro f w d t th p q hflat k
  have hw : w ≠ .w4 := ne_w4_of_flatOf hflat
  rw [maskEngine_with_th]
  exact ⟨blendAt_with_hev_of_flat hw hflat _ k _ _ _ _ _, blendAt_with_hev_of_flat hw hflat _ k _ _ _ _ _⟩

end Sys2Proof.Machine
end

section
/-! The obligations of 45_orientation_adapter.md: which of its samples a command writes (R174, R175), a vertical command
as a transposed horizontal one (R176), and a dual command as two single ones (R178). -/

namespace Sys2Proof

/-! ### The positions of a line, from its outermost `p` sample to its outermost `q` sample (R116, R171, R172) -/

/-- The step from a line to the next (R171, R172). -/
def Cmd.lineStep (c : Cmd) : Int :=
  match c.orient with
  | .horizontal => 1
  | .vertical => c.stride

/-- The step from a sample of a line to the next (R171, R172). -/
def Cmd.sampleStep (c : Cmd) : Int :=
  match c.orient with
  | .horizontal => c.stride
  | .vertical => 1

/-- The address of position `j` of line `n`, counted from the outermost `p` sample as R176 counts the rows of `tmp`. -/
def Cmd.addrAt (c : Cmd) (n j : Nat) : Int := c.base + n * c.lineStep + (j - c.width.K) * c.sampleStep

theorem Cmd.addrP_eq_addrAt (c : Cmd) (n : Nat) {k : Nat} (hk : k < c.width.K) :
    c.addrP n k = c.addrAt n (c.width.K - 1 - k) := by
  have hj : ((c.width.K - 1 - k : Nat) : Int) = c.width.K - 1 - k := by omega
  cases ho : c.orient with
  | horizontal | vertical =>
    simp only [Cmd.addrP, Cmd.addrAt, Cmd.lineStep, Cmd.sampleStep, ho, hj]
    ring

theorem Cmd.addrQ_eq_addrAt (c : Cmd) (n k : Nat) : c.addrQ n k = c.addrAt n (c.width.K + k) := by
  cases ho : c.orient with
  | horizontal | vertical =>
    simp only [Cmd.addrQ, Cmd.addrAt, Cmd.lineStep, Cmd.sampleStep, ho]
    push_cast
    ring

/-- A position less than `b` from the edge is index `k < b` of one of the two sides. -/
theorem exists_index_of_position {K b j : Nat} (hb : b ≤ K) (hlo : K - b ≤ j) (hhi : j < K + b) :
    ∃ k < b, j = K - 1 - k ∨ j = K + k := by
  rcases Nat.lt_or_ge j K with hp | hq
  · exact ⟨K - 1 - j, by omega, .inl (by omega)⟩
  · exact ⟨j - K, by omega, .inr (by omega)⟩

/-- The first `b` samples of each side are the positions less than `b` from the edge. -/
theorem Cmd.exists_index_iff_position (c : Cmd) (n : Nat) {b : Nat} (hb : b ≤ c.width.K) (a : Int) :
    (∃ k < b, a = c.addrP n k ∨ a = c.addrQ n k) ↔
      ∃ j, c.width.K - b ≤ j ∧ j < c.width.K + b ∧ a = c.addrAt n j := by
  constructor
  · rintro ⟨k, hk, rfl | rfl⟩
    · exact ⟨c.width.K - 1 - k, by omega, by omega, c.addrP_eq_addrAt n (hk.trans_le hb)⟩
    · exact ⟨c.width.K + k, by omega, by omega, c.addrQ_eq_addrAt n k⟩
  · rintro ⟨j, hlo, hhi, rfl⟩
    obtain ⟨k, hk, rfl | rfl⟩ := exists_index_of_position hb hlo hhi
    · exact ⟨k, hk, .inl (c.addrP_eq_addrAt n (hk.trans_le hb)).symm⟩
    · exact ⟨k, hk, .inr (c.addrQ_eq_addrAt n k).symm⟩

namespace Machine

theorem mem_footprint_iff_addrAt {c : Cmd} {L : Nat} {a : Int} :
    a ∈ c.footprint L ↔ ∃ n < c.nLines L, ∃ j < 2 * c.width.K, a = c.addrAt n j := by
  simp only [mem_footprint, c.exists_index_iff_position _ le_rfl, Nat.sub_self, Nat.zero_le, true_and, two_mul]

theorem mem_writeSet_iff_addrAt {c : Cmd} {L : Nat} {a : Int} :
    a ∈ c.writeSet L ↔ ∃ n < c.nLines L, ∃ j, c.width.K - c.width.M ≤ j ∧ j < c.width.K + c.width.M ∧
      a = c.addrAt n j := by
  simp only [mem_writeSet, c.exists_index_iff_position _ (Width.M_le_K c.width)]

theorem addrAt_mem_footprint {c : Cmd} {L n j : Nat} (hn : n < c.nLines L) (hj : j < 2 * c.width.K) :
    c.addrAt n j ∈ c.footprint L := mem_footprint_iff_addrAt.mpr ⟨n, hn, j, hj, rfl⟩

theorem lineAddrs_eq_map_addrAt (c : Cmd) (n : Nat) :
    c.lineAddrs n = (List.range (2 * c.width.K)).map (c.addrAt n) := by
  refine List.ext_getElem (by simp [Cmd.lineAddrs, two_mul]) fun j h _ => ?_
  have hj : j < 2 * c.width.K := by simpa [Cmd.lineAddrs, two_mul] using h
  rw [List.getElem_map, List.getElem_range]
  rcases Nat.lt_or_ge j c.width.K with hp | hq
  · have hk : c.width.K - 1 - j < c.width.K := by omega
    have hback : c.width.K - 1 - (c.width.K - 1 - j) = j := by omega
    simp [Cmd.lineAddrs, hp, c.addrP_eq_addrAt n hk, hback]
  · simp [Cmd.lineAddrs, List.getElem_append_right, hq, c.addrQ_eq_addrAt n]

/-- The footprint runs through every position of every line. -/
theorem footprint_eq_map_addrAt (c : Cmd) (L : Nat) : c.footprint L =
    (List.range (c.nLines L) ×ˢ List.range (2 * c.width.K)).map fun x => c.addrAt x.1 x.2 := by
  have hlines : c.lineAddrs = fun n => (List.range (2 * c.width.K)).map (c.addrAt n) :=
    funext (lineAddrs_eq_map_addrAt c)
  simp [Cmd.footprint, hlines, SProd.sprod, List.product, List.map_flatMap, Function.comp_def]

/-- The footprint has no repeated address exactly when different positions have different addresses. -/
theorem footprint_nodup_iff {c : Cmd} {L : Nat} : (c.footprint L).Nodup ↔
    ∀ n < c.nLines L, ∀ j < 2 * c.width.K, ∀ n' < c.nLines L, ∀ j' < 2 * c.width.K,
      c.addrAt n j = c.addrAt n' j' → n = n' ∧ j = j' := by
  rw [footprint_eq_map_addrAt, List.nodup_map_iff_inj_on (List.nodup_range.product List.nodup_range)]
  simp only [Prod.forall, List.mem_product, List.mem_range, Prod.mk.injEq]
  exact ⟨fun h n hn j hj n' hn' j' hj' => h n j ⟨hn, hj⟩ n' j' ⟨hn', hj'⟩,
    fun h n j ⟨hn, hj⟩ n' j' ⟨hn', hj'⟩ => h n hn j hj n' hn' j' hj'⟩

/-! ### Sizes of footprint and write set, and the read-only samples (R174, R175) -/

theorem length_footprint (c : Cmd) (L : Nat) : (c.footprint L).length = 2 * c.width.K * c.nLines L := by
  rw [footprint_eq_map_addrAt, List.length_map, List.length_product, List.length_range, List.length_range, mul_comm]

theorem length_writeSet (c : Cmd) (L : Nat) : (c.writeSet L).length = 2 * c.width.M * c.nLines L := by
  simp [Cmd.writeSet, Cmd.lineWrites, List.length_flatMap, two_mul, mul_comm]

/-- Of distinct addresses, the written ones are those less than `M` from the edge. -/
theorem addrAt_mem_writeSet_iff {c : Cmd} {L n j : Nat} (h : (c.footprint L).Nodup) (hn : n < c.nLines L)
    (hj : j < 2 * c.width.K) :
    c.addrAt n j ∈ c.writeSet L ↔ c.width.K - c.width.M ≤ j ∧ j < c.width.K + c.width.M := by
  rw [mem_writeSet_iff_addrAt]
  constructor
  · rintro ⟨n', hn', j', hlo, hhi, heq⟩
    have hM := Width.M_le_K c.width
    obtain ⟨-, rfl⟩ := footprint_nodup_iff.mp h n hn j hj n' hn' j' (by omega) heq
    exact ⟨hlo, hhi⟩
  · rintro ⟨hlo, hhi⟩
    exact ⟨n, hn, j, hlo, hhi, rfl⟩

/-- Settles O29: index `k` is position `K - 1 - k` or `K + k`, and the write set is the positions less than `M` from the
edge. -/
theorem writeSetIsTheInnerFootprint : Obligations.WriteSetIsTheInnerFootprint := by
  intro c L
  refine ⟨length_footprint c L, length_writeSet c L, fun _ => writeSet_subset_footprint, fun h n hn k hk => ?_⟩
  rw [c.addrP_eq_addrAt n hk, c.addrQ_eq_addrAt, addrAt_mem_writeSet_iff h hn (by omega),
    addrAt_mem_writeSet_iff h hn (by omega)]
  omega

/-! ### A ready command (R190) -/

/-- A ready command completes, whatever the registers of its engine hold. -/
theorem exists_exec_eq_of_ready {i : Instr} {s : State} (h : Ready s i) :
    ∃ e, exec i s = .next (commandState i.cmd s e) :=
  ⟨_, (exec_eq_runCommand i s).trans (runCommand_of_ready (List.getElem?_eq_getElem h.1) h.2)⟩

/-! ### Two commands that do the same work on a line (R191) -/

/-- Lines that hold the same samples at every position are gathered alike. -/
theorem gathered_congr {m m' : Memory} {c c' : Cmd} {n n' : Nat} (hwidth : c'.width = c.width)
    (h : ∀ j < 2 * c.width.K, m'.sample (c'.addrAt n' j) = m.sample (c.addrAt n j)) :
    gatheredP m' c' n' = gatheredP m c n ∧ gatheredQ m' c' n' = gatheredQ m c n := by
  have hrow : (c'.lineAddrs n').map m'.sample = (c.lineAddrs n).map m.sample := by
    rw [lineAddrs_eq_map_addrAt, lineAddrs_eq_map_addrAt, List.map_map, List.map_map, hwidth]
    exact List.map_congr_left fun j hj => h j (List.mem_range.mp hj)
  rw [map_sample_lineAddrs, map_sample_lineAddrs] at hrow
  obtain ⟨hp, hq⟩ := List.append_inj hrow (by simp [gatheredP, hwidth])
  exact ⟨List.reverse_injective hp, hq⟩

/-- A line's results depend on its gathered samples, its triple, and the width, depth and `FLAT_INCLUDES_P1Q1`. -/
theorem results_congr {cfg cfg' : Config} {m m' : Memory} {c c' : Cmd} {n n' : Nat}
    (hflat : cfg'.flatIncludesP1Q1 = cfg.flatIncludesP1Q1) (hwidth : c'.width = c.width) (hdepth : c'.depth = c.depth)
    (hpar : segmentParams c' cfg'.linesPerSegment n' = segmentParams c cfg.linesPerSegment n)
    (hp : gatheredP m' c' n' = gatheredP m c n) (hq : gatheredQ m' c' n' = gatheredQ m c n) :
    resultP cfg' m' c' n' = resultP cfg m c n ∧ resultQ cfg' m' c' n' = resultQ cfg m c n := by
  constructor <;> funext k <;>
    simp only [resultP, resultQ, lineMasks, lineThresholds, hflat, hwidth, hdepth, hpar, hp, hq]

/-! ### A dual command as two single commands (R173, R178) -/

/-- The lines of `part` are lines of `c`, from line `start` on. -/
structure IsSegment (L start : Nat) (c part : Cmd) : Prop where
  width : part.width = c.width
  orient : part.orient = c.orient
  depth : part.depth = c.depth
  stride : part.stride = c.stride
  base : (part.base : Int) = c.base + start * c.lineStep
  params : ∀ n < part.nLines L, segmentParams part L n = segmentParams c L (start + n)

/-- The lines of `c` are those of `c0`, then those of `c1`. -/
structure SplitsInto (L : Nat) (c c0 c1 : Cmd) : Prop where
  lines : c.nLines L = c0.nLines L + c1.nLines L
  first : IsSegment L 0 c c0
  second : IsSegment L (c0.nLines L) c c1

/-- The writes of line `n` of a command on memory `m`. -/
def storesAt (cfg : Config) (m : Memory) (c : Cmd) (n : Nat) : List (Nat × Sample) :=
  (List.range c.width.M).map (fun k => ((c.addrP n k).toNat, BitVec.ofNat 16 (resultP cfg m c n k).toNat))
    ++ (List.range c.width.M).map (fun k => ((c.addrQ n k).toNat, BitVec.ofNat 16 (resultQ cfg m c n k).toNat))

theorem commandStores_eq_flatMap (cfg : Config) (m : Memory) (c : Cmd) :
    commandStores cfg m c = (List.range (c.nLines cfg.linesPerSegment)).flatMap (storesAt cfg m c) := rfl

section
variable {L start : Nat} {c part : Cmd} (h : IsSegment L start c part)
include h

theorem IsSegment.addrP_eq (n : Nat) : part.addrP n = c.addrP (start + n) := by
  funext k
  cases ho : c.orient with
  | horizontal | vertical =>
    simp only [Cmd.addrP, Cmd.lineStep, h.orient, h.stride, h.base, ho]
    push_cast
    ring

theorem IsSegment.addrQ_eq (n : Nat) : part.addrQ n = c.addrQ (start + n) := by
  funext k
  cases ho : c.orient with
  | horizontal | vertical =>
    simp only [Cmd.addrQ, Cmd.lineStep, h.orient, h.stride, h.base, ho]
    push_cast
    ring

theorem IsSegment.lineAddrs_eq (n : Nat) : part.lineAddrs n = c.lineAddrs (start + n) := by
  simp only [Cmd.lineAddrs, h.width, h.addrP_eq, h.addrQ_eq]

end

theorem IsSegment.storesAt_eq {cfg : Config} {start : Nat} {c part : Cmd}
    (h : IsSegment cfg.linesPerSegment start c part) (m : Memory) {n : Nat} (hn : n < part.nLines cfg.linesPerSegment) :
    storesAt cfg m part n = storesAt cfg m c (start + n) := by
  have hp : gatheredP m part n = gatheredP m c (start + n) := by simp only [gatheredP, h.width, h.addrP_eq]
  have hq : gatheredQ m part n = gatheredQ m c (start + n) := by simp only [gatheredQ, h.width, h.addrQ_eq]
  obtain ⟨hresP, hresQ⟩ := results_congr rfl h.width h.depth (h.params n hn) hp hq
  simp only [storesAt, h.width, h.addrP_eq, h.addrQ_eq, hresP, hresQ]

theorem flatMap_range_add {α : Type} (f : Nat → List α) (a b : Nat) :
    (List.range (a + b)).flatMap f = (List.range a).flatMap f ++ (List.range b).flatMap fun n => f (a + n) := by
  rw [List.range_add, List.flatMap_append, List.flatMap_map]

section
variable {cfg : Config} {m : Memory} {c c0 c1 : Cmd} (h : SplitsInto cfg.linesPerSegment c c0 c1)
include h

theorem SplitsInto.footprint_eq : c.footprint cfg.linesPerSegment =
    c0.footprint cfg.linesPerSegment ++ c1.footprint cfg.linesPerSegment := by
  rw [Cmd.footprint, h.lines, flatMap_range_add]
  congr 1
  · refine List.flatMap_congr fun n _ => ?_
    rw [h.first.lineAddrs_eq, Nat.zero_add]
  · exact List.flatMap_congr fun n _ => (h.second.lineAddrs_eq n).symm

theorem SplitsInto.stores_eq : commandStores cfg m c = commandStores cfg m c0 ++ commandStores cfg m c1 := by
  simp only [commandStores_eq_flatMap, h.lines, flatMap_range_add]
  congr 1
  · refine List.flatMap_congr fun n hn => ?_
    rw [h.first.storesAt_eq m (List.mem_range.mp hn), Nat.zero_add]
  · exact List.flatMap_congr fun n hn => (h.second.storesAt_eq m (List.mem_range.mp hn)).symm

theorem SplitsInto.inContract_iff : InContract cfg m c ↔ InContract cfg m c0 ∧ InContract cfg m c1 ∧
    (c0.footprint cfg.linesPerSegment).Disjoint (c1.footprint cfg.linesPerSegment) := by
  constructor
  · rintro ⟨hin, hnodup, hsamples⟩
    rw [h.footprint_eq, List.forall_mem_append] at hin hsamples
    rw [h.footprint_eq, List.nodup_append'] at hnodup
    obtain ⟨hin0, hin1⟩ := hin
    obtain ⟨hnodup0, hnodup1, hdisjoint⟩ := hnodup
    obtain ⟨hsamples0, hsamples1⟩ := hsamples
    exact ⟨⟨hin0, hnodup0, h.first.depth ▸ hsamples0⟩, ⟨hin1, hnodup1, h.second.depth ▸ hsamples1⟩, hdisjoint⟩
  · rintro ⟨⟨hin0, hnodup0, hsamples0⟩, ⟨hin1, hnodup1, hsamples1⟩, hdisjoint⟩
    rw [h.first.depth] at hsamples0
    rw [h.second.depth] at hsamples1
    constructor <;> rw [h.footprint_eq]
    · exact List.forall_mem_append.mpr ⟨hin0, hin1⟩
    · exact hnodup0.append hnodup1 hdisjoint
    · exact List.forall_mem_append.mpr ⟨hsamples0, hsamples1⟩

end

/-- Writes to distinct addresses leave the same samples in every order. -/
theorem Memory.read_writeAll_perm {ws vs : List (Nat × Sample)} (h : ws.Perm vs) (hd : (ws.map Prod.fst).Nodup)
    (m : Memory) (a : Nat) : (m.writeAll ws).read a = (m.writeAll vs).read a := by
  by_cases ha : ∃ w ∈ ws, w.1 = a
  · obtain ⟨w, hw, rfl⟩ := ha
    rw [Memory.read_writeAll_of_mem m ws w hw hd,
      Memory.read_writeAll_of_mem m vs w (h.mem_iff.mp hw) ((h.map _).nodup_iff.mp hd)]
  · have hws : ∀ w ∈ ws, w.1 ≠ a := fun w hw e => ha ⟨w, hw, e⟩
    rw [Memory.read_writeAll_of_not_mem m ws a hws,
      Memory.read_writeAll_of_not_mem m vs a fun w hw => hws w (h.mem_iff.mpr hw)]

/-- Two ready commands on disjoint footprints run one after the other: both store what they would store alone. -/
theorem exec_exec_of_disjoint {i j : Instr} {s : State} (hi : Ready s i) (hj : Ready s j)
    (hij : (i.cmd.footprint s.cfg.linesPerSegment).Disjoint (j.cmd.footprint s.cfg.linesPerSegment)) :
    ∃ t u, exec i s = .next t ∧ exec j t = .next u ∧
      u.mem = s.mem.writeAll (commandStores s.cfg s.mem i.cmd ++ commandStores s.cfg s.mem j.cmd) := by
  obtain ⟨e, ht⟩ := exists_exec_eq_of_ready hi
  obtain ⟨hcur, hi⟩ := hi
  obtain ⟨-, hj⟩ := hj
  have hafter : InContract s.cfg (commandMemory s.cfg s.mem i.cmd) j.cmd :=
    hj.of_sample_eq fun a ha => hi.sample_commandMemory (hj.inside a ha).1 fun hai => hij hai ha
  have hkept : s.cur < (commandState i.cmd s e).engines.length := hcur.trans_eq List.length_set.symm
  obtain ⟨f, hu⟩ := exists_exec_eq_of_ready (s := commandState i.cmd s e) (i := j) ⟨hkept, hafter⟩
  have hmem := commandMemory_commandMemory hi hj hij
  rw [Memory.writeAll, Memory.writeAll, ← List.foldl_append] at hmem
  exact ⟨_, _, ht, hu, hmem⟩

theorem nLines_single {c : Cmd} (h : c.dual = false) (L : Nat) : c.nLines L = L := by
  simp [Cmd.nLines, Cmd.segments, h]

theorem nLines_dual {c : Cmd} (h : c.dual = true) (L : Nat) : c.nLines L = L + L := by
  simp [Cmd.nLines, Cmd.segments, h, two_mul]

theorem segmentParams_first (c : Cmd) {L n : Nat} (hn : n < L) : segmentParams c L n = c.par0 :=
  if_pos (Nat.div_eq_of_lt hn)

theorem segmentParams_second (c : Cmd) {L n : Nat} (hn : n < L) : segmentParams c L (L + n) = c.par1 :=
  if_neg (Nat.div_pos (Nat.le_add_right L n) (Nat.zero_lt_of_lt hn)).ne'

/-- The single commands of R178 are the two segments of the dual one. -/
theorem dual_splitsInto {o : Orient} {w : Width} {d : Depth} {base base1 L : Nat} {stride : Int} {par0 par1 : Params}
    (h : (base1 : Int) = base + L * (instrOf true o w d base stride par0 par1).cmd.lineStep) :
    SplitsInto L (instrOf true o w d base stride par0 par1).cmd (instrOf false o w d base stride par0 par1).cmd
      (instrOf false o w d base1 stride par1 par1).cmd := by
  simp only [cmd_instrOf] at h ⊢
  refine ⟨?_, ⟨rfl, rfl, rfl, rfl, by simp, fun n hn => ?_⟩, ⟨rfl, rfl, rfl, rfl, ?_, fun n hn => ?_⟩⟩
  · rw [nLines_dual rfl, nLines_single rfl, nLines_single rfl]
  · rw [nLines_single rfl] at hn
    rw [Nat.zero_add, segmentParams_first _ hn, segmentParams_first _ hn]
  · rw [nLines_single rfl]
    exact h
  · rw [nLines_single rfl] at hn
    rw [nLines_single rfl, segmentParams_first _ hn, segmentParams_second _ hn]
    rfl

/-- Settles O40: the lines of the dual command are those of the two single ones, so its footprint and its writes are
theirs put together; the writes go to distinct addresses, so their order does not matter. -/
theorem dualEqualsTwoSingles : Obligations.DualEqualsTwoSingles := by
  intro o w d base base1 stride par0 par1 s hbase dual first second
  have hsplit : SplitsInto s.cfg.linesPerSegment dual.cmd first.cmd second.cmd := by
    apply dual_splitsInto
    rw [hbase, cmd_instrOf]
    cases o with
    | horizontal => exact congrArg _ (mul_one _).symm
    | vertical => rfl
  have hready : Ready s dual ↔ Ready s first ∧ Ready s second ∧
      ∀ a ∈ first.cmd.footprint s.cfg.linesPerSegment, a ∉ second.cmd.footprint s.cfg.linesPerSegment := by
    simp only [Ready, hsplit.inContract_iff]
    constructor
    · rintro ⟨hcur, h0, h1, hdisjoint⟩
      exact ⟨⟨hcur, h0⟩, ⟨hcur, h1⟩, hdisjoint⟩
    · rintro ⟨⟨hcur, h0⟩, ⟨-, h1⟩, hdisjoint⟩
      exact ⟨hcur, h0, h1, hdisjoint⟩
  refine ⟨hready, fun hdual => ?_⟩
  obtain ⟨hfirst, hsecond, hdisjoint⟩ := hready.mp hdual
  obtain ⟨e, ht⟩ := exists_exec_eq_of_ready hdual
  obtain ⟨-, hin⟩ := hdual
  obtain ⟨t0, t01, ht0, ht01, hmem01⟩ := exec_exec_of_disjoint hfirst hsecond hdisjoint
  obtain ⟨t1, t10, ht1, ht10, hmem10⟩ := exec_exec_of_disjoint hsecond hfirst (List.Disjoint.symm hdisjoint)
  refine ⟨_, t0, t01, t1, t10, ht, ht0, ht01, ht1, ht10, fun a => ?_⟩
  have hnodup := commandStores_keys_nodup hin
  rw [hsplit.stores_eq] at hnodup
  rw [hmem01, hmem10, commandState, commandMemory, hsplit.stores_eq]
  exact ⟨rfl, (Memory.read_writeAll_perm List.perm_append_comm hnodup _ a).symm⟩

/-! ### A vertical command as a transposed horizontal one (R176) -/

/-- `c'` filters the buffer of R176 for `c`: position `j` of line `n` is the buffer's sample `j × N + n`. -/
structure IsTransposed (L : Nat) (c c' : Cmd) : Prop where
  width : c'.width = c.width
  depth : c'.depth = c.depth
  dual : c'.dual = c.dual
  par0 : c'.par0 = c.par0
  par1 : c'.par1 = c.par1
  addr : ∀ n j, c'.addrAt n j = ((j * c.nLines L + n : Nat) : Int)

/-- The commands of R176. -/
theorem isTransposed_instrOf (dual : Bool) (w : Width) (d : Depth) (base L : Nat) (stride : Int) (par0 par1 : Params) :
    IsTransposed L (instrOf dual .vertical w d base stride par0 par1).cmd
      (instrOf dual .horizontal w d (w.K * ((if dual then 2 else 1) * L)) ((if dual then 2 else 1) * L : Nat)
        par0 par1).cmd := by
  simp only [cmd_instrOf]
  refine ⟨rfl, rfl, rfl, rfl, rfl, fun n j => ?_⟩
  simp only [Cmd.addrAt, Cmd.lineStep, Cmd.sampleStep, Cmd.nLines, Cmd.segments]
  push_cast
  ring

theorem IsTransposed.nLines_eq {L : Nat} {c c' : Cmd} (h : IsTransposed L c c') : c'.nLines L = c.nLines L := by
  simp only [Cmd.nLines, Cmd.segments, h.dual]

/-- The rows of the buffer have `N` samples each, so no two positions share an address. -/
theorem IsTransposed.footprint_nodup {L : Nat} {c c' : Cmd} (h : IsTransposed L c c') : (c'.footprint L).Nodup := by
  rw [footprint_nodup_iff, h.nLines_eq]
  intro n hn j _ n' hn' j' _ heq
  rw [h.addr, h.addr, Int.natCast_inj] at heq
  have hcol : n = n' := by
    simpa [Nat.mod_eq_of_lt, hn, hn'] using congrArg (· % c.nLines L) heq
  subst hcol
  exact ⟨rfl, Nat.eq_of_mul_eq_mul_right (Nat.zero_lt_of_lt hn) (Nat.add_right_cancel heq)⟩

/-- The buffer has `2K` rows. -/
theorem IsTransposed.footprint_lt {L : Nat} {c c' : Cmd} (h : IsTransposed L c c') {a : Int}
    (ha : a ∈ c'.footprint L) : 0 ≤ a ∧ a < (2 * c.width.K * c.nLines L : Nat) := by
  obtain ⟨n, hn, j, hj, rfl⟩ := mem_footprint_iff_addrAt.mp ha
  rw [h.nLines_eq] at hn
  rw [h.width] at hj
  have hrow : (j + 1) * c.nLines L ≤ 2 * c.width.K * c.nLines L := Nat.mul_le_mul_right _ hj
  rw [Nat.succ_mul] at hrow
  rw [h.addr]
  omega

section
variable {cfg cfg' : Config} {m m' : Memory} {c c' : Cmd} (h : IsTransposed cfg.linesPerSegment c c')
  (hL : cfg'.linesPerSegment = cfg.linesPerSegment) (hin : InContract cfg m c)
  (hcopy : ∀ n < c.nLines cfg.linesPerSegment, ∀ j < 2 * c.width.K,
    m'.sample (c'.addrAt n j) = m.sample (c.addrAt n j))
include h hL hin hcopy

theorem IsTransposed.inContract (hsize : 2 * c.width.K * c.nLines cfg.linesPerSegment ≤ cfg'.memSamples) :
    InContract cfg' m' c' := by
  constructor
  · intro a ha
    rw [hL] at ha
    obtain ⟨hlo, hhi⟩ := h.footprint_lt ha
    exact ⟨hlo, hhi.trans_le (Int.ofNat_le.mpr hsize)⟩
  · rw [hL]
    exact h.footprint_nodup
  · intro a ha
    rw [hL, mem_footprint_iff_addrAt, h.nLines_eq, h.width] at ha
    obtain ⟨n, hn, j, hj, rfl⟩ := ha
    rw [hcopy n hn j hj, h.depth]
    exact hin.samples _ (addrAt_mem_footprint hn hj)

/-- Line `n` is the same work for both commands, so position `j` ends with the same sample. -/
theorem IsTransposed.read_commandMemory (hflat : cfg'.flatIncludesP1Q1 = cfg.flatIncludesP1Q1)
    (hin' : InContract cfg' m' c') {n j : Nat} (hn : n < c.nLines cfg.linesPerSegment)
    (hlo : c.width.K - c.width.M ≤ j) (hhi : j < c.width.K + c.width.M) :
    (commandMemory cfg m c).read (c.addrAt n j).toNat = (commandMemory cfg' m' c').read (c'.addrAt n j).toNat := by
  have hline : n < c'.nLines cfg'.linesPerSegment := by rwa [hL, h.nLines_eq]
  have hpar : segmentParams c' cfg'.linesPerSegment n = segmentParams c cfg.linesPerSegment n := by
    simp only [segmentParams, hL, h.par0, h.par1]
  obtain ⟨hp, hq⟩ := gathered_congr h.width (hcopy n hn)
  obtain ⟨hresP, hresQ⟩ := results_congr hflat h.width h.depth hpar hp hq
  obtain ⟨k, hk, rfl | rfl⟩ := exists_index_of_position (Width.M_le_K c.width) hlo hhi
  · have hK : k < c.width.K := hk.trans_le (Width.M_le_K c.width)
    rw [← c.addrP_eq_addrAt n hK, ← h.width, ← c'.addrP_eq_addrAt n (h.width ▸ hK), commandMemory_p hin hn hk,
      commandMemory_p hin' hline (h.width ▸ hk), hresP]
  · rw [← c.addrQ_eq_addrAt, ← h.width, ← c'.addrQ_eq_addrAt, commandMemory_q hin hn hk,
      commandMemory_q hin' hline (h.width ▸ hk), hresQ]

end

/-- Settles O41: the vertical command has position `j` of line `n` at `place j n`, the horizontal one at sample
`j × N + n` of the buffer, which is a copy. Outside the written positions the vertical command's frame applies. -/
theorem verticalEqualsTransposedHorizontal : Obligations.VerticalEqualsTransposedHorizontal := by
  intro dual w d base stride par0 par1 s u N vertical horizontal place hL hflat hsize hcur hcopy hready
  obtain ⟨e, ht⟩ := exists_exec_eq_of_ready hready
  obtain ⟨-, hin⟩ := hready
  have htransposed : IsTransposed s.cfg.linesPerSegment vertical.cmd horizontal.cmd :=
    isTransposed_instrOf dual w d base s.cfg.linesPerSegment stride par0 par1
  have hvertical := cmd_instrOf dual .vertical w d base stride par0 par1
  have hwidth : vertical.cmd.width = w := congrArg Cmd.width hvertical
  have hlines : vertical.cmd.nLines s.cfg.linesPerSegment = N := congrArg (Cmd.nLines · _) hvertical
  have hplace : ∀ n j, (vertical.cmd.addrAt n j).toNat = place j n := by
    intro n j
    rw [hvertical]
    simp [Cmd.addrAt, Cmd.lineStep, Cmd.sampleStep, place]
  have hbuffer : ∀ n j, (horizontal.cmd.addrAt n j).toNat = j * N + n := by
    intro n j
    rw [htransposed.addr, hlines, Int.toNat_natCast]
  have hsamples : ∀ n < vertical.cmd.nLines s.cfg.linesPerSegment, ∀ j < 2 * vertical.cmd.width.K,
      u.mem.sample (horizontal.cmd.addrAt n j) = s.mem.sample (vertical.cmd.addrAt n j) := by
    intro n hn j hj
    rw [Memory.sample, Memory.sample, hplace, hbuffer, hcopy n (hlines ▸ hn) j (hwidth ▸ hj)]
  have hin' : InContract u.cfg u.mem horizontal.cmd :=
    htransposed.inContract hL hin hsamples (by rwa [hwidth, hlines])
  obtain ⟨f, ht'⟩ := exists_exec_eq_of_ready (s := u) (i := horizontal) ⟨hcur, hin'⟩
  refine ⟨_, _, ht, ht', fun n hn j hlo hhi => ?_, fun a ha => ?_⟩
  · rw [← hplace, ← hbuffer]
    exact htransposed.read_commandMemory hL hin hsamples hflat hin' (hlines ▸ hn) (hwidth ▸ hlo) (hwidth ▸ hhi)
  · refine commandMemory_frame _ _ _ a fun b hb hba => ?_
    obtain ⟨n, hn, j, hlo, hhi, rfl⟩ := mem_writeSet_iff_addrAt.mp hb
    rw [hplace] at hba
    exact ha n (hlines ▸ hn) j (hwidth ▸ hlo) (hwidth ▸ hhi) hba.symm

end Machine
end Sys2Proof
end

section
/-! The obligations of 46_commands.md: what a command reads, refuses and leaves unchanged (R190), and the results of the
sixteen commands (R192 to R207). -/

namespace Sys2Proof.Machine

/-! ### What a command reads (R29, R190) -/

theorem read_eq_of_sample_eq {m m' : Memory} {a : Int} (h : m'.sample a = m.sample a) :
    m'.read a.toNat = m.read a.toNat := BitVec.eq_of_toNat_eq h

/-- Memories that agree on a command's footprint agree there after the command. -/
theorem sample_commandMemory_congr {cfg : Config} {m m' : Memory} {c : Cmd}
    (h : ∀ a ∈ c.footprint cfg.linesPerSegment, m'.sample a = m.sample a) {a : Int}
    (ha : a ∈ c.footprint cfg.linesPerSegment) :
    (commandMemory cfg m' c).sample a = (commandMemory cfg m c).sample a := by
  rw [commandMemory, commandStores_congr h]
  exact congrArg BitVec.toNat (Memory.read_writeAll_congr _ (read_eq_of_sample_eq (h a ha)))

/-- Settles O38: the contract and the stores are functions of the footprint's samples, and every written address is in
the footprint. -/
theorem commandsReadOnlyTheirFootprint : Obligations.CommandsReadOnlyTheirFootprint := by
  intro i s u t hcfg hcur hagree h
  rw [exec_eq_runCommand] at h
  obtain ⟨e, -, hin, rfl⟩ := (runCommand_eq_next_iff _ _ _).mp h
  have hready : Ready u i := ⟨hcur, hcfg ▸ hin.of_sample_eq hagree⟩
  obtain ⟨f, hu⟩ := exists_exec_eq_of_ready hready
  refine ⟨_, hu, fun n hn k hk => ?_⟩
  have hwritten : ∀ a, a = i.cmd.addrP n k ∨ a = i.cmd.addrQ n k →
      (commandMemory u.cfg u.mem i.cmd).sample a = (commandMemory s.cfg s.mem i.cmd).sample a := fun a ha =>
    hcfg ▸ sample_commandMemory_congr hagree (writeSet_subset_footprint (mem_writeSet.mpr ⟨n, hn, k, hk, ha⟩))
  exact ⟨hwritten _ (.inl rfl), hwritten _ (.inr rfl)⟩

/-! ### The frame of a command (R175, R190) -/

/-- Settles O35: the state after a command is the state before it with the stores made and the running engine
finished. -/
theorem commandsChangeOnlyTheirWriteSet : Obligations.CommandsChangeOnlyTheirWriteSet := by
  intro i s t h
  rw [exec_eq_runCommand] at h
  obtain ⟨e, he, -, rfl⟩ := (runCommand_eq_next_iff _ _ _).mp h
  have hcur : s.cur < s.engines.length := (List.getElem?_eq_some_iff.mp he).1
  refine ⟨fun a ha => commandMemory_frame _ _ _ a fun b hb hba => ?_, rfl, rfl, rfl, rfl, List.length_set,
    fun j hj => List.getElem?_set_ne hj.symm, e, (e.work s.cfg s.mem i.cmd).finish, he, List.getElem?_set_self hcur,
    rfl, rfl, rfl⟩
  obtain ⟨n, hn, k, hk, rfl | rfl⟩ := mem_writeSet.mp hb
  · exact (ha n hn k hk).1 hba.symm
  · exact (ha n hn k hk).2 hba.symm

/-! ### The refusals of a command (R190, R222, R223) -/

section
variable {cfg : Config} {m : Memory} {c : Cmd}

theorem inRange_eq_false_iff :
    inRange cfg c = false ↔ ∃ a ∈ c.footprint cfg.linesPerSegment, a < 0 ∨ (cfg.memSamples : Int) ≤ a := by
  rw [← Bool.not_eq_true, inRange_iff]
  push Not
  simp only [imp_iff_not_or, not_le]

theorem samplesInRange_eq_false_iff :
    samplesInRange cfg m c = false ↔ ∃ a ∈ c.footprint cfg.linesPerSegment, c.depth.pmax < m.sample a := by
  rw [← Bool.not_eq_true, samplesInRange_iff]
  push Not
  rfl

/-- The outcome of the checks, by the first one that fails. -/
theorem checkCommand_cases (cfg : Config) (m : Memory) (c : Cmd) :
    (inRange cfg c = false ∧ checkCommand cfg m c = some .footprintOutOfRange) ∨
    (inRange cfg c = true ∧ aliasFree cfg c = false ∧ checkCommand cfg m c = some .footprintAlias) ∨
    (inRange cfg c = true ∧ aliasFree cfg c = true ∧ samplesInRange cfg m c = false ∧
      checkCommand cfg m c = some .sampleOutOfRange) ∨
    (inRange cfg c = true ∧ aliasFree cfg c = true ∧ samplesInRange cfg m c = true ∧ checkCommand cfg m c = none) := by
  unfold checkCommand
  cases inRange cfg c with
  | false => exact .inl ⟨rfl, rfl⟩
  | true =>
    cases aliasFree cfg c with
    | false => exact .inr (.inl ⟨rfl, rfl, rfl⟩)
    | true =>
      cases samplesInRange cfg m c with
      | false => exact .inr (.inr (.inl ⟨rfl, rfl, rfl, rfl⟩))
      | true => exact .inr (.inr (.inr ⟨rfl, rfl, rfl, rfl⟩))

end

theorem exists_exec_eq_next_iff {i : Instr} {s : State} (hcur : s.cur < s.engines.length) :
    (∃ t, exec i s = .next t) ↔ checkCommand s.cfg s.mem i.cmd = none := by
  rw [checkCommand_eq_none_iff]
  constructor
  · rintro ⟨t, h⟩
    rw [exec_eq_runCommand] at h
    obtain ⟨-, -, hin, -⟩ := (runCommand_eq_next_iff _ _ _).mp h
    exact hin
  · intro hin
    obtain ⟨e, h⟩ := exists_exec_eq_of_ready (i := i) ⟨hcur, hin⟩
    exact ⟨_, h⟩

/-- Settles O36: the outcome is the outcome of the checks, and each check is a statement about the footprint. -/
theorem commandsRefuseExactlyOutsideContract : Obligations.CommandsRefuseExactlyOutsideContract := by
  intro i s hcur F leaves large
  rw [exists_exec_eq_next_iff hcur]
  simp only [exec_eq_runCommand, runCommand_eq_refused_iff, hcur, true_and]
  have hleaves : leaves ↔ inRange s.cfg i.cmd = false := inRange_eq_false_iff.symm
  have hdistinct : F.Nodup ↔ aliasFree s.cfg i.cmd = true := (aliasFree_iff _ _).symm
  have hlarge : large ↔ samplesInRange s.cfg s.mem i.cmd = false := samplesInRange_eq_false_iff.symm
  rw [hleaves, hdistinct, hlarge]
  rcases checkCommand_cases s.cfg s.mem i.cmd with ⟨h1, h⟩ | ⟨h1, h2, h⟩ | ⟨h1, h2, h3, h⟩ | ⟨h1, h2, h3, h⟩
  · simp [h, h1]
  · simp [h, h1, h2]
  · simp [h, h1, h2, h3]
  · simp [h, h1, h2, h3]

/-! ### No average exceeds its samples (R119, R123, R138) -/

theorem rnd_le {v b : Int} {n : Nat} (hn : 0 < n) (h : v ≤ 2 ^ n * b) : rnd v n ≤ b := by
  obtain ⟨n, rfl⟩ := Nat.exists_eq_add_one_of_ne_zero hn.ne'
  have hpos : (0 : Int) < 2 ^ n := by positivity
  refine Int.lt_add_one_iff.mp (Int.ediv_lt_of_lt_mul (by positivity) ?_)
  rw [Nat.add_sub_cancel]
  rw [pow_succ] at h ⊢
  linarith

theorem kernel_weight_nonneg (w : Width) (j : Nat) : 0 ≤ (kernel w).getD j 0 :=
  getD_zero_nonneg (by cases w <;> decide) j

/-- The weights of a kernel sum to `2^n` (R116). -/
theorem sum_kernel {w : Width} (hw : w ≠ .w4) :
    ∑ j ∈ Finset.range (kernel w).length, (kernel w).getD j 0 = 2 ^ kernelShift w := by
  cases w with
  | w4 => contradiction
  | w6 | w8 | w14 => rfl

theorem kernelShift_pos {w : Width} (hw : w ≠ .w4) : 0 < kernelShift w := by
  cases w with
  | w4 => contradiction
  | w6 | w8 | w14 => decide

theorem length_kernelStage_p_le (w : Width) (p q : Side) : (kernelStage w p q).p.length ≤ w.M := by
  cases w with
  | w4 => exact Nat.zero_le _
  | w6 | w8 | w14 => exact le_rfl

section
variable {p q : Side} {top : Nat} (hp : ∀ k, p.getD k 0 ≤ top) (hq : ∀ k, q.getD k 0 ≤ top)
include hp hq

theorem lineAt_le (K i : Nat) : lineAt K p q i ≤ top := by
  unfold lineAt
  split
  · exact Int.ofNat_le.mpr (hp _)
  · exact Int.ofNat_le.mpr (hq _)

theorem kernelAvg_le {w : Width} (hw : w ≠ .w4) (i : Nat) : kernelAvg w p q i ≤ top := by
  rw [kernelAvg_eq_rnd_sum]
  refine rnd_le (kernelShift_pos hw) ?_
  rw [← sum_kernel hw, Finset.sum_mul]
  exact Finset.sum_le_sum fun j _ => mul_le_mul_of_nonneg_left (lineAt_le hp hq _ _) (kernel_weight_nonneg w j)

/-- At an output position an average is one of the kernel's; at no other index is there any. -/
theorem kernelStage_p_le (w : Width) (k : Nat) : (kernelStage w p q).p.getD k 0 ≤ top := by
  have hnone : (kernelStage w p q).p.length ≤ k → (kernelStage w p q).p.getD k 0 ≤ top := fun h =>
    (List.getD_eq_default _ _ h).trans_le (Int.natCast_nonneg _)
  by_cases hw : w = .w4
  · subst hw
    exact hnone (Nat.zero_le _)
  rcases Nat.lt_or_ge k w.M with hk | hk
  · rw [kernelStage_p_eq_kernelAvg p q hw hk]
    exact kernelAvg_le hp hq hw _
  · exact hnone ((length_kernelStage_p_le w p q).trans hk)

theorem kernelStage_q_le (w : Width) (k : Nat) : (kernelStage w p q).q.getD k 0 ≤ top := by
  rw [kernelStage_mirror]
  exact kernelStage_p_le hq hp w k

end

/-- The averages the Blender chooses from are kernel stages, the middle one of width 14 that of width 8 (R139). -/
theorem exists_midTier_eq_kernelStage (w : Width) (p q : Side) : ∃ v, midTier w p q = kernelStage v p q := by
  cases w with
  | w4 => exact ⟨.w4, rfl⟩
  | w6 => exact ⟨.w6, rfl⟩
  | w8 | w14 => exact ⟨.w8, rfl⟩

theorem exists_wideTier_eq_kernelStage (w : Width) (p q : Side) : ∃ v, wideTier w p q = kernelStage v p q := by
  cases w with
  | w14 => exact ⟨.w14, rfl⟩
  | w4 | w6 | w8 => exact ⟨.w4, rfl⟩

/-! ### No result exceeds `pmax(bd)` (R163) -/

section
variable {d : Depth} {p q : Side} (hp : ∀ k, p.getD k 0 ≤ d.pmax) (hq : ∀ k, q.getD k 0 ≤ d.pmax)
include hp hq

theorem blendP_le_pmax (w : Width) (m : Masks) (k : Nat) : blendP w d m p q k ≤ d.pmax := by
  obtain ⟨v, hmid⟩ := exists_midTier_eq_kernelStage w p q
  obtain ⟨v', hwide⟩ := exists_wideTier_eq_kernelStage w p q
  rw [blendP, hmid, hwide]
  refine blendAt_of_candidates (P := (· ≤ (d.pmax : Int))) w m k (Int.ofNat_le.mpr (hp k)) ?_
    (kernelStage_p_le hp hq v k) (kernelStage_p_le hp hq v' k)
  split <;> exact moveSample_le_pmax d _ _

theorem blendQ_le_pmax (w : Width) (m : Masks) (k : Nat) : blendQ w d m p q k ≤ d.pmax := by
  obtain ⟨v, hmid⟩ := exists_midTier_eq_kernelStage w p q
  obtain ⟨v', hwide⟩ := exists_wideTier_eq_kernelStage w p q
  rw [blendQ, hmid, hwide]
  refine blendAt_of_candidates (P := (· ≤ (d.pmax : Int))) w m k (Int.ofNat_le.mpr (hq k)) ?_
    (kernelStage_q_le hp hq v k) (kernelStage_q_le hp hq v' k)
  split <;> exact moveSample_le_pmax d _ _

end

/-! ### The samples a command leaves (R190) -/

theorem px_gatheredP (m : Memory) (c : Cmd) (n : Nat) {k : Nat} (hk : k < c.width.K) :
    (gatheredP m c n).px k = m.sample (c.addrP n k) := px_map_range _ hk

theorem px_gatheredQ (m : Memory) (c : Cmd) (n : Nat) {k : Nat} (hk : k < c.width.K) :
    (gatheredQ m c n).px k = m.sample (c.addrQ n k) := px_map_range _ hk

theorem getD_map_range_le {f : Nat → Nat} {K top : Nat} (h : ∀ k < K, f k ≤ top) (k : Nat) :
    ((List.range K).map f).getD k 0 ≤ top := by
  rcases Nat.lt_or_ge k K with hk | hk
  · simpa [List.getD, hk] using h k hk
  · simp [List.getD, hk]

theorem toNat_ofNat_sample {d : Depth} {v : Int} (h0 : 0 ≤ v) (h : v ≤ d.pmax) :
    ((BitVec.ofNat 16 v.toNat).toNat : Int) = v := by
  have hpmax : d.pmax < 2 ^ 16 := by cases d <;> decide
  rw [BitVec.toNat_ofNat, Nat.mod_eq_of_lt (by omega), Int.toNat_of_nonneg h0]

/-- A footprint sample that is not written is kept. -/
theorem InContract.sample_kept_of_not_mem {cfg : Config} {m : Memory} {c : Cmd} (h : InContract cfg m c) {a : Int}
    (ha : a ∈ c.footprint cfg.linesPerSegment)
    (hout : a ∉ c.writeSet cfg.linesPerSegment) : (commandMemory cfg m c).sample a = m.sample a := by
  refine congrArg BitVec.toNat (commandMemory_frame cfg m c _ fun b hb hba => ?_)
  have hpos := (h.inside a ha).1
  have hbpos := (h.inside b (writeSet_subset_footprint hb)).1
  obtain rfl : b = a := by omega
  exact hout hb

section
variable {cfg : Config} {m : Memory} {c : Cmd} (hin : InContract cfg m c) {n : Nat}
  (hn : n < c.nLines cfg.linesPerSegment)
include hin hn

theorem InContract.gatheredP_le_pmax (k : Nat) : (gatheredP m c n).getD k 0 ≤ c.depth.pmax :=
  getD_map_range_le (fun k hk => hin.samples _ (mem_footprint.mpr ⟨n, hn, k, hk, .inl rfl⟩)) k

theorem InContract.gatheredQ_le_pmax (k : Nat) : (gatheredQ m c n).getD k 0 ≤ c.depth.pmax :=
  getD_map_range_le (fun k hk => hin.samples _ (mem_footprint.mpr ⟨n, hn, k, hk, .inr rfl⟩)) k

/-- A sample container holds every result of in-range samples, so the result is what is read back. -/
theorem InContract.sample_written {k : Nat} (hk : k < c.width.M) :
    ((commandMemory cfg m c).sample (c.addrP n k) : Int) = resultP cfg m c n k ∧
    ((commandMemory cfg m c).sample (c.addrQ n k) : Int) = resultQ cfg m c n k := by
  have hp := hin.gatheredP_le_pmax hn
  have hq := hin.gatheredQ_le_pmax hn
  rw [Memory.sample, Memory.sample, commandMemory_p hin hn hk, commandMemory_q hin hn hk]
  exact ⟨toNat_ofNat_sample (blendP_nonneg _ _ _ _ _ _) (blendP_le_pmax hp hq _ _ _),
    toNat_ofNat_sample (blendQ_nonneg _ _ _ _ _ _) (blendQ_le_pmax hp hq _ _ _)⟩

/-- The read-only samples of a line, of index `M` or more, are kept (R175). -/
theorem InContract.sample_kept {k : Nat} (hM : c.width.M ≤ k) (hK : k < c.width.K) :
    (commandMemory cfg m c).sample (c.addrP n k) = m.sample (c.addrP n k) ∧
    (commandMemory cfg m c).sample (c.addrQ n k) = m.sample (c.addrQ n k) := by
  obtain ⟨-, -, -, hwritten⟩ := writeSetIsTheInnerFootprint c cfg.linesPerSegment
  obtain ⟨hP, hQ⟩ := hwritten hin.distinct n hn k hK
  exact ⟨hin.sample_kept_of_not_mem (mem_footprint.mpr ⟨n, hn, k, hK, .inl rfl⟩) fun h => hM.not_gt (hP.mp h),
    hin.sample_kept_of_not_mem (mem_footprint.mpr ⟨n, hn, k, hK, .inr rfl⟩) fun h => hM.not_gt (hQ.mp h)⟩

end

/-! ### The sixteen commands (R192 to R207) -/

theorem Completes.imp {o : Host.Outcome State Fault Refusal} {Q R : State → Prop} (h : Completes o Q)
    (hQR : ∀ t, Q t → R t) : Completes o R := by
  obtain ⟨t, ho, ht⟩ := h
  exact ⟨t, ho, hQR t ht⟩

/-- The four commands of one width. -/
theorem cmd_of_mem_width {w : Width} {d : Depth} {base : Nat} {stride : Int} {par par' : Params} {i : Instr}
    (hi : i ∈ [instrOf false .horizontal w d base stride par par', instrOf false .vertical w d base stride par par',
      instrOf true .horizontal w d base stride par par', instrOf true .vertical w d base stride par par']) :
    i.cmd.width = w ∧ i.cmd.depth = d := by
  have hinstr : ∃ dual o, i = instrOf dual o w d base stride par par' := by
    simp only [List.mem_cons, List.not_mem_nil, or_false] at hi
    rcases hi with h | h | h | h <;> exact ⟨_, _, h⟩
  obtain ⟨dual, o, rfl⟩ := hinstr
  rw [cmd_instrOf]
  exact ⟨rfl, rfl⟩

/-- What memory `m'` holds of a line after a command of width `w` and depth `d` on memory `m`: the Blender's values at
the written indices, the original samples at the others. -/
structure LineLeft (w : Width) (d : Depth) (cfg : Config) (m m' : Memory) (c : Cmd) (n : Nat) : Prop where
  p : ∀ k < w.M, (m'.sample (c.addrP n k) : Int) =
    blendP w d (lineMasks cfg m c n) (gatheredP m c n) (gatheredQ m c n) k
  q : ∀ k < w.M, (m'.sample (c.addrQ n k) : Int) =
    blendQ w d (lineMasks cfg m c n) (gatheredP m c n) (gatheredQ m c n) k
  keptP : ∀ k < w.K, w.M ≤ k → m'.sample (c.addrP n k) = m.sample (c.addrP n k)
  keptQ : ∀ k < w.K, w.M ≤ k → m'.sample (c.addrQ n k) = m.sample (c.addrQ n k)

/-- A ready command completes with the Blender's values on every line. -/
theorem Ready.completes {i : Instr} {s : State} (h : Ready s i) {w : Width} {d : Depth} (hw : i.cmd.width = w)
    (hd : i.cmd.depth = d) :
    Completes (exec i s) fun t =>
      ∀ n < i.cmd.nLines s.cfg.linesPerSegment, LineLeft w d s.cfg s.mem t.mem i.cmd n := by
  subst hw hd
  obtain ⟨e, ht⟩ := exists_exec_eq_of_ready h
  obtain ⟨-, hin⟩ := h
  exact ⟨_, ht, fun n hn =>
    { p := fun k hk => (hin.sample_written hn hk).1
      q := fun k hk => (hin.sample_written hn hk).2
      keptP := fun k hK hM => (hin.sample_kept hn hM hK).1
      keptQ := fun k hK hM => (hin.sample_kept hn hM hK).2 }⟩

/-- Settles O31: at width 4 the Blender takes the Filter4 result at both indices. -/
theorem widthFourCommandsComplete : Obligations.WidthFourCommandsComplete := by
  intro d base stride par par' s i hi hready
  obtain ⟨hw, hd⟩ := cmd_of_mem_width (w := .w4) (par' := par') hi
  refine (hready.completes hw hd).imp fun t ht n hn => ?_
  have hline := ht n hn
  exact ⟨hline.p 1 (by decide), hline.p 0 (by decide), hline.q 0 (by decide), hline.q 1 (by decide)⟩

/-- Settles O32: at width 6 the Blender takes the average where `flat` holds and the Filter4 result elsewhere; index 2 is
read only. -/
theorem widthSixCommandsComplete : Obligations.WidthSixCommandsComplete := by
  intro d base stride par par' s i hi hready
  obtain ⟨hw, hd⟩ := cmd_of_mem_width (w := .w6) (par' := par') hi
  refine (hready.completes hw hd).imp fun t ht n hn => ?_
  have hline := ht n hn
  exact ⟨hline.p 1 (by decide), hline.p 0 (by decide), hline.q 0 (by decide), hline.q 1 (by decide),
    hline.keptP 2 (by decide) (by decide), hline.keptQ 2 (by decide) (by decide)⟩

/-- Settles O33: at width 8 the Blender takes the average where `flat` holds, elsewhere the Filter4 result or, at index 2,
the gathered sample; index 3 is read only. -/
theorem widthEightCommandsComplete : Obligations.WidthEightCommandsComplete := by
  intro d base stride par par' s i hi hready
  obtain ⟨hw, hd⟩ := cmd_of_mem_width (w := .w8) (par' := par') hi
  refine (hready.completes hw hd).imp fun t ht n hn => ?_
  have hline := ht n hn
  have hread : 2 < i.cmd.width.K := by rw [hw]; decide
  refine ⟨?_, hline.p 1 (by decide), hline.p 0 (by decide), hline.q 0 (by decide), hline.q 1 (by decide), ?_,
    hline.keptP 3 (by decide) (by decide), hline.keptQ 3 (by decide) (by decide)⟩
  · rw [← px_gatheredP s.mem i.cmd n hread]
    exact hline.p 2 (by decide)
  · rw [← px_gatheredQ s.mem i.cmd n hread]
    exact hline.q 2 (by decide)

/-- The selection at width 14 as one choice of tier (R159). -/
theorem blendAt_w14 (m : Masks) {k : Nat} (hk : k < 6) (orig f0 f1 mid wide : Int) :
    blendAt .w14 m k orig (if k = 0 then f0 else f1) mid wide =
      if m.flat2 then wide else if m.flat ∧ k < 3 then mid else if k = 0 then f0 else if k = 1 then f1 else orig := by
  cases hflat2 : m.flat2 with
  | true => simp [blendAt, hflat2]
  | false =>
    cases hflat : m.flat with
    | false =>
      rw [blendAt_of_not_flat hflat hflat2 hk, ite_inner_index]
      simp
    | true =>
      rw [blendAt_of_middle_tier (w := .w14) nofun hflat hflat2 hk]
      rcases Nat.lt_or_ge k 3 with hinner | houter
      · simp [hinner]
      · have h0 : k ≠ 0 := by omega
        have h1 : k ≠ 1 := by omega
        simp [Nat.not_lt.mpr houter, h0, h1]

/-- Settles O34: at width 14 the Blender takes the tier that the masks select, and the gathered sample where no tier
reaches; index 6 is read only. -/
theorem widthFourteenCommandsComplete : Obligations.WidthFourteenCommandsComplete := by
  intro d base stride par par' s i hi hready
  obtain ⟨hw, hd⟩ := cmd_of_mem_width (w := .w14) (par' := par') hi
  refine (hready.completes hw hd).imp fun t ht n hn => ?_
  have hline := ht n hn
  have hread : ∀ k < 6, k < i.cmd.width.K := fun k hk => by rw [hw]; exact Nat.lt_succ_of_lt hk
  refine ⟨fun k hk => ?_, fun k hk => ?_, hline.keptP 6 (by decide) (by decide), hline.keptQ 6 (by decide) (by decide)⟩
  · rw [← px_gatheredP s.mem i.cmd n (hread k hk)]
    exact (hline.p k hk).trans (blendAt_w14 _ hk _ _ _ _ _)
  · rw [← px_gatheredQ s.mem i.cmd n (hread k hk)]
    exact (hline.q k hk).trans (blendAt_w14 _ hk _ _ _ _ _)

end Sys2Proof.Machine
end

section
/-! The obligations of 60_exceptions.md: the verdict on a presented descriptor (R222, R223), and the host's accesses
beside commands in progress (R229). -/

namespace Sys2Proof.Machine

/-! ### The verdict on a presented descriptor (R222, R223) -/

section
variable {s : State} {e : Nat} {d : Descriptor} {eng : Engine} (he : s.engines[e]? = some eng)
include he

theorem issue_of_busy (hbusy : eng.st = .busy) : issue e d s = .refused .busyIssue := by
  simp [issue, he, Engine.cmdReady, hbusy]

theorem issue_of_reserved (hidle : eng.st = .idle) {r : Reserved} (hd : decode d = .error r) :
    issue e d s = .refused (reservedRefusal r) := by
  simp [issue, he, Engine.cmdReady, hidle, hd]

variable (hidle : eng.st = .idle) {i : Instr} (hd : decode d = .ok i)
include hidle hd

theorem issue_of_check_fails {r : Refusal} (hc : checkCommand s.cfg s.mem i.cmd = some r) :
    issue e d s = .refused r := by
  simp [issue, he, Engine.cmdReady, hidle, hd, hc]

theorem issue_of_overlap (hc : checkCommand s.cfg s.mem i.cmd = none)
    (hoverlap : (i.cmd.footprint s.cfg.linesPerSegment).any (heldBySome s) = true) :
    issue e d s = .refused .footprintOverlap := by
  simp [issue, he, Engine.cmdReady, hidle, hd, hc, hoverlap]

theorem issue_of_accepted (hc : checkCommand s.cfg s.mem i.cmd = none)
    (hfree : (i.cmd.footprint s.cfg.linesPerSegment).any (heldBySome s) = false) :
    issue e d s = .next { s with engines := s.engines.set e { eng with st := .busy, latch := d } } := by
  simp [issue, he, Engine.cmdReady, hidle, hd, hc, hfree]

end

/-- Settles O44: the outcome is that of the first check that fails, the check against the footprints in progress coming
last, and each check is a statement about the footprint. -/
theorem issueReportsTheFirstReason : Obligations.IssueReportsTheFirstReason := by
  intro s e d eng he
  refine ⟨issue_of_busy he, fun hidle r hd => ?_, fun hidle i hd => ?_⟩
  · rw [issue_of_reserved he hidle hd]
    cases r <;> rfl
  · intro F leaves large overlap
    have hleaves : leaves ↔ inRange s.cfg i.cmd = false := inRange_eq_false_iff.symm
    have hdistinct : F.Nodup ↔ aliasFree s.cfg i.cmd = true := (aliasFree_iff _ _).symm
    have hlarge : large ↔ samplesInRange s.cfg s.mem i.cmd = false := samplesInRange_eq_false_iff.symm
    have hoverlap : overlap ↔ F.any (heldBySome s) = true := List.any_eq_true.symm
    rw [hleaves, hdistinct, hlarge, hoverlap]
    rcases checkCommand_cases s.cfg s.mem i.cmd with ⟨h1, hc⟩ | ⟨h1, h2, hc⟩ | ⟨h1, h2, h3, hc⟩ | ⟨h1, h2, h3, hc⟩
    · simp [issue_of_check_fails he hidle hd hc, h1]
    · simp [issue_of_check_fails he hidle hd hc, h1, h2]
    · simp [issue_of_check_fails he hidle hd hc, h1, h2, h3]
    · cases hany : F.any (heldBySome s) with
      | true => simp [issue_of_overlap he hidle hd hc hany, h1, h2, h3]
      | false => simp [issue_of_accepted he hidle hd hc hany, h1, h2, h3]

/-! ### The host beside commands in progress (R229, R254) -/

theorem exists_hostAccess_eq_next_iff (a : Nat) (s s' : State) :
    (∃ t, hostAccess a s s' = .next t) ↔ a < s.cfg.memSamples ∧ heldBySome s a = false := by
  simp [hostAccess_eq_next_iff]

theorem hostAccess_of_held {a : Nat} {s : State} (ha : a < s.cfg.memSamples) (hheld : heldBySome s a = true)
    (s' : State) : hostAccess a s s' = .refused .footprintOverlap := by
  rw [hostAccess, if_neg (Nat.not_le.mpr ha), if_pos hheld]

/-- Settles O46: both accesses are `hostAccess`; a completed read answers the state it found, a completed write the state
with that one sample replaced. -/
theorem hostAccessStaysOutsideHeldFootprints : Obligations.HostAccessStaysOutsideHeldFootprints := by
  intro s a v
  refine ⟨exists_hostAccess_eq_next_iff a s _, exists_hostAccess_eq_next_iff a s _, fun t h => ?_, fun t h => ?_,
    fun ha hheld => ⟨hostAccess_of_held ha hheld _, hostAccess_of_held ha hheld _⟩⟩
  · exact ((hostAccess_eq_next_iff a s s t).mp h).2.2
  · obtain ⟨-, -, rfl⟩ := (hostAccess_eq_next_iff a s _ t).mp h
    refine ⟨?_, fun b hb => ?_, rfl⟩
    · simp [Memory.read_write]
    · simp [Memory.read_write, hb]

end Sys2Proof.Machine
end

section
/-! Of 40_mask_engine.md and 41_filter4.md: the saturated test (R89), and the ranges of Filter4's steps (R104). -/

namespace Sys2Proof.Machine

/-- Settles O6: the saturated difference is 0 exactly when the first number is at most the second, whatever their
signs. -/
theorem saturatedTestIsAtMost : Obligations.SaturatedTestIsAtMost := fun d t _ _ => satsub_eq_zero_iff d t

theorem asr_le_asr {v u : Int} (h : v ≤ u) (n : Nat) : asr v n ≤ asr u n :=
  Int.ediv_le_ediv (by positivity) h

/-- Both steps of Filter4 shift a clamped number by 3. -/
theorem asr_clampBd_mem (d : Depth) (v : Int) :
    d.smin / 8 ≤ asr (clampBd d v) 3 ∧ asr (clampBd d v) 3 ≤ asr d.smax 3 :=
  ⟨asr_le_asr (clampBd_mem d v).1 3, asr_le_asr (clampBd_mem d v).2 3⟩

/-- The clamp takes two adjacent numbers to equal or adjacent ones. -/
theorem clampBd_add_one (d : Depth) (v : Int) :
    clampBd d (v + 1) = clampBd d v ∨ clampBd d (v + 1) = clampBd d v + 1 := by
  unfold clampBd
  omega

/-- Settles O18: `filter1` and `filter2` shift the clamps of adjacent numbers. -/
theorem filterFourStepsAreBounded : Obligations.FilterFourStepsAreBounded := by
  intro d adj
  refine ⟨asr_clampBd_mem d _, asr_clampBd_mem d _, ?_⟩
  have hclamp := clampBd_add_one d (adj + 3)
  rw [filter1, filter2, asr_three, asr_three, show adj + 4 = adj + 3 + 1 by ring]
  omega

end Sys2Proof.Machine
end

section
/-! Of 42_filter6_filter8.md and 43_filter14.md: the range of the averages and their fixed points (R119, R123, R138). -/

namespace Sys2Proof.Machine

theorem Width.K_pos (w : Width) : 0 < w.K := by cases w <;> decide

theorem Width.one_lt_K (w : Width) : 1 < w.K := by cases w <;> decide

theorem rnd_two_pow_mul {n : Nat} (hn : 0 < n) (v : Int) : rnd (2 ^ n * v) n = v := by
  obtain ⟨n, rfl⟩ := Nat.exists_eq_add_one_of_ne_zero hn.ne'
  have hpos : (0 : Int) < 2 ^ n := by positivity
  have hhalf : (2 : Int) ^ n / 2 ^ (n + 1) = 0 := Int.ediv_eq_zero_of_lt hpos.le (by rw [pow_succ]; linarith)
  rw [rnd, asr, Nat.add_sub_cancel, add_comm, Int.add_mul_ediv_left _ _ (by positivity), hhalf, zero_add]

theorem lineAt_nonneg (K : Nat) (p q : Side) (i : Nat) : 0 ≤ lineAt K p q i := by
  unfold lineAt
  split <;> exact px_nonneg _ _

theorem kernelAvg_nonneg (w : Width) (p q : Side) (i : Nat) : 0 ≤ kernelAvg w p q i := by
  rw [kernelAvg_eq_rnd_sum]
  exact rnd_nonneg (Finset.sum_nonneg fun j _ => mul_nonneg (kernel_weight_nonneg w j) (lineAt_nonneg _ p q _)) _

theorem lineAt_of_constant {K i : Nat} {p q : Side} {v : Int} (h : ∀ k < K, p.px k = v ∧ q.px k = v)
    (hi : i < 2 * K) : lineAt K p q i = v := by
  unfold lineAt
  split
  · exact (h _ (by omega)).1
  · exact (h _ (by omega)).2

/-- Every tap of a constant line is the constant, and the weights sum to `2^n`. -/
theorem kernelAvg_of_constant {w : Width} (hw : w ≠ .w4) {p q : Side} {v : Int}
    (h : ∀ k < w.K, p.px k = v ∧ q.px k = v) (i : Nat) : kernelAvg w p q i = v := by
  have htap (j : Nat) : kernelTap w p q i j = (kernel w).getD j 0 * v := by
    have hK := Width.K_pos w
    rw [kernelTap, lineAt_of_constant h (by omega)]
  rw [kernelAvg_eq_rnd_sum, Finset.sum_congr rfl fun j _ => htap j, ← Finset.sum_mul, sum_kernel hw]
  exact rnd_two_pow_mul (kernelShift_pos hw) v

theorem exists_kernelAvg_of_mem_p {w : Width} (hw : w ≠ .w4) {p q : Side} {x : Int} (hx : x ∈ (kernelStage w p q).p) :
    ∃ i, x = kernelAvg w p q i := by
  obtain ⟨k, hk, rfl⟩ := List.mem_iff_getElem.mp hx
  rw [← List.getD_eq_getElem _ 0 hk]
  exact ⟨_, kernelStage_p_eq_kernelAvg p q hw (hk.trans_le (length_kernelStage_p_le w p q))⟩

/-- A property of every average of the kernel, on either side of the line, is one of every output of the stage. -/
theorem forall_mem_kernelStage {w : Width} (hw : w ≠ .w4) {p q : Side} {P : Int → Prop}
    (hpq : ∀ i, P (kernelAvg w p q i)) (hqp : ∀ i, P (kernelAvg w q p i)) :
    ∀ x ∈ (kernelStage w p q).p ++ (kernelStage w p q).q, P x := by
  rw [kernelStage_mirror, List.forall_mem_append]
  constructor <;> intro x hx <;> obtain ⟨i, rfl⟩ := exists_kernelAvg_of_mem_p hw hx
  · exact hpq i
  · exact hqp i

/-- Settles O22: every output of a stage is an average of its width's kernel. -/
theorem averagesStayInSampleRange : Obligations.AveragesStayInSampleRange := by
  intro p q top hp hq stage hstage
  obtain ⟨w, hw, rfl⟩ : ∃ w : Width, w ≠ .w4 ∧ stage = (w.K, kernelStage w p q) := by
    simp only [List.mem_cons, List.not_mem_nil, or_false] at hstage
    rcases hstage with rfl | rfl | rfl
    · exact ⟨.w6, nofun, rfl⟩
    · exact ⟨.w8, nofun, rfl⟩
    · exact ⟨.w14, nofun, rfl⟩
  refine ⟨forall_mem_kernelStage hw (fun i => ⟨kernelAvg_nonneg w p q i, kernelAvg_le hp hq hw i⟩)
    fun i => ⟨kernelAvg_nonneg w q p i, kernelAvg_le hq hp hw i⟩, fun v hv => ?_⟩
  have hconst : ∀ k < w.K, p.px k = v ∧ q.px k = v := fun k hk =>
    ⟨congrArg Nat.cast (hv k hk).1, congrArg Nat.cast (hv k hk).2⟩
  exact forall_mem_kernelStage hw (kernelAvg_of_constant hw hconst)
    (kernelAvg_of_constant hw fun k hk => (hconst k hk).symm)

end Sys2Proof.Machine
end

section
/-! Of 44_blender.md: the range of the results (R163), and the lines that are fixed points (R161, R164). -/

namespace Sys2Proof.Machine

/-! ### The range of the results (R163) -/

/-- Settles O26: each candidate of the Blender is non-negative and at most `pmax(bd)`. -/
theorem resultsStayInSampleRange : Obligations.ResultsStayInSampleRange := fun _ w d _ p q hp hq k _ =>
  ⟨⟨blendP_nonneg w d _ p q k, blendP_le_pmax hp hq w _ k⟩, ⟨blendQ_nonneg w d _ p q k, blendQ_le_pmax hp hq w _ k⟩⟩

/-! ### A line without `mask` (R161) -/

theorem blend_without_mask {f : Bool} {w : Width} {d : Depth} {t : Thresholds} {p q : Side}
    (hp : ∀ k, p.getD k 0 ≤ d.pmax) (hq : ∀ k, q.getD k 0 ≤ d.pmax) (hmask : (maskEngine f w t p q).mask = false)
    {k : Nat} (hk : k < w.M) :
    blendP w d (maskEngine f w t p q) p q k = p.px k ∧ blendQ w d (maskEngine f w t p q) p q k = q.px k :=
  (finestTrueTierIsSelected f w d t p q hp hq k hk).1 hmask

/-- Results that are the original samples are the first samples of their side. -/
theorem map_range_eq_take {l : Side} {M : Nat} (hM : M ≤ l.length) {g : Nat → Int} (hg : ∀ k < M, g k = l.px k) :
    ((List.range M).map fun k => (g k).toNat) = l.take M := by
  refine List.ext_getElem (by simp [hM]) fun k hk _ => ?_
  have hkM : k < M := by simpa using hk
  rw [List.getElem_map, List.getElem_range, List.getElem_take, hg k hkM]
  exact List.getD_eq_getElem _ _ (hkM.trans_le hM)

/-- Settles O27: without `mask` the results are the original samples, and with the read-only ones they are the line
itself. -/
theorem unfilteredLineIsAFixedPoint : Obligations.UnfilteredLineIsAFixedPoint := by
  intro f w d t r hplen hqlen hp hq hmask r' again
  have hM := Width.M_le_K w
  have hoP : r'.oP = r.p.take w.M :=
    map_range_eq_take (hM.trans_eq hplen.symm) fun k hk => (blend_without_mask hp hq hmask hk).1
  have hoQ : r'.oQ = r.q.take w.M :=
    map_range_eq_take (hM.trans_eq hqlen.symm) fun k hk => (blend_without_mask hp hq hmask hk).2
  have hagain : again = r := by
    simp only [again, hoP, hoQ, List.take_append_drop]
  exact ⟨hoP, hoQ, hagain ▸ hmask⟩

/-! ### A constant line (R164) -/

/-- The Blender answers one of the candidates that the width has at the index. -/
theorem blendAt_of_present_candidates {P : Int → Prop} {w : Width} {k : Nat} (hk : k < w.M) (m : Masks)
    {orig f4 mid wide : Int} (horig : P orig) (hf4 : P f4) (hmid : w ≠ .w4 → k < 3 → P mid)
    (hwide : w = .w14 → P wide) : P (blendAt w m k orig f4 mid wide) := by
  cases w with
  | w4 => exact hf4
  | w6 =>
    have hmid := hmid nofun (Nat.lt_succ_of_lt hk)
    rw [blendAt]
    split <;> assumption
  | w8 =>
    have hmid := hmid nofun hk
    rw [blendAt]
    split_ifs <;> assumption
  | w14 =>
    have hwide := hwide rfl
    rcases Nat.lt_or_ge k 3 with hinner | houter
    · have hmid := hmid nofun hinner
      rw [blendAt]
      split_ifs <;> assumption
    · rw [blendAt, if_neg (Nat.not_lt.mpr houter)]
      split <;> assumption

/-- Where a width has a middle average, it is an output of a kernel stage that reads no more than the width does. -/
theorem exists_midTier_eq_kernelStage_of_lt {w : Width} (hw : w ≠ .w4) {k : Nat} (hk : k < w.M) (hk3 : k < 3)
    (p q : Side) : ∃ v : Width, v ≠ .w4 ∧ v.K ≤ w.K ∧ k < v.M ∧ midTier w p q = kernelStage v p q := by
  cases w with
  | w4 => contradiction
  | w6 => exact ⟨.w6, nofun, le_rfl, hk, rfl⟩
  | w8 => exact ⟨.w8, nofun, le_rfl, hk, rfl⟩
  | w14 => exact ⟨.w8, nofun, by decide, hk3, rfl⟩

theorem lineAdjust_of_constant (d : Depth) (v : Int) : lineAdjust d true false v v v v = 0 := by
  obtain ⟨hmin, hmax⟩ := signedRange_contains_eight d
  rw [lineAdjust_of_mask, baseFilter_without_hev, sub_self, clampBd_of_mem (by omega)]
  rfl

/-- With `adj` 0 Filter4 leaves a constant line alone. -/
theorem filter4_of_constant {d : Depth} {v : Nat} (hv : v ≤ d.pmax) :
    filter4 d true false v v v v = { p1 := v, p0 := v, q0 := v, q1 := v } := by
  refine (filterFourFixesExactlySmallAdjustments d false v v v v hv hv hv hv).mpr (.inl ?_)
  rw [lineAdjust_of_constant]
  decide

section
variable {w : Width} {p q : Side} {v : Nat} (h : ∀ k < w.K, p.px k = v ∧ q.px k = v)
include h

theorem lineStep_of_constant {k : Nat} (hk : k < w.K) : lineStep p q k = 0 := by
  have hk' : k - 1 < w.K := by omega
  simp [lineStep, h k hk, h (k - 1) hk']

theorem maskOf_of_constant (t : Thresholds) : maskOf w t p q = true := by
  have h0 := h 0 (Width.K_pos w)
  have h1 := h 1 (Width.one_lt_K w)
  rw [maskOf_iff, largestStep_le_iff]
  refine ⟨by simp [h0, h1], fun k _ hk _ => ?_⟩
  rw [lineStep_of_constant h hk]
  exact Int.natCast_nonneg _

theorem hevOf_of_constant (t : Thresholds) : hevOf t p q = false := by
  have hstep := lineStep_of_constant h (Width.one_lt_K w)
  simp [hevOf, hstep]

theorem lineFilter4_of_constant {d : Depth} {m : Masks} (hv : v ≤ d.pmax) (hmask : m.mask = true)
    (hhev : m.hev = false) : lineFilter4 d m p q = { p1 := v, p0 := v, q0 := v, q1 := v } := by
  obtain ⟨hp0, hq0⟩ := h 0 (Width.K_pos w)
  obtain ⟨hp1, hq1⟩ := h 1 (Width.one_lt_K w)
  rw [lineFilter4, hmask, hhev, hp0, hp1, hq0, hq1]
  exact filter4_of_constant hv

theorem midTier_of_constant (hw : w ≠ .w4) {k : Nat} (hk : k < w.M) (hk3 : k < 3) :
    (midTier w p q).p.getD k 0 = v ∧ (midTier w p q).q.getD k 0 = v := by
  obtain ⟨u, hu, hK, hkM, hmid⟩ := exists_midTier_eq_kernelStage_of_lt hw hk hk3 p q
  have hu' : ∀ k < u.K, p.px k = v ∧ q.px k = v := fun k hk => h k (hk.trans_le hK)
  rw [hmid, kernelStage_p_eq_kernelAvg p q hu hkM, kernelStage_q_eq_kernelAvg p q hu hkM]
  exact ⟨kernelAvg_of_constant hu hu' _, kernelAvg_of_constant hu hu' _⟩

theorem wideTier_of_constant (hw : w = .w14) {k : Nat} (hk : k < w.M) :
    (wideTier w p q).p.getD k 0 = v ∧ (wideTier w p q).q.getD k 0 = v := by
  subst hw
  have hw : Width.w14 ≠ .w4 := nofun
  have hwide : wideTier .w14 p q = kernelStage .w14 p q := rfl
  rw [hwide, kernelStage_p_eq_kernelAvg p q hw hk, kernelStage_q_eq_kernelAvg p q hw hk]
  exact ⟨kernelAvg_of_constant hw h _, kernelAvg_of_constant hw h _⟩

/-- Every candidate of the Blender is the constant. -/
theorem blend_of_constant {d : Depth} {m : Masks} (hv : v ≤ d.pmax) (hmask : m.mask = true) (hhev : m.hev = false)
    {k : Nat} (hk : k < w.M) : blendP w d m p q k = v ∧ blendQ w d m p q k = v := by
  obtain ⟨hp, hq⟩ := h k (hk.trans_le (Width.M_le_K w))
  have hmid (hw : w ≠ .w4) (hk3 : k < 3) := midTier_of_constant h hw hk hk3
  have hwide (hw : w = .w14) := wideTier_of_constant h hw hk
  rw [blendP, blendQ, lineFilter4_of_constant h hv hmask hhev]
  simp only [ite_self]
  exact ⟨blendAt_of_present_candidates (P := (· = (v : Int))) hk m hp rfl (fun hw hk3 => (hmid hw hk3).1)
      fun hw => (hwide hw).1,
    blendAt_of_present_candidates (P := (· = (v : Int))) hk m hq rfl (fun hw hk3 => (hmid hw hk3).2)
      fun hw => (hwide hw).2⟩

end

/-- Settles O28: a constant line has no step, and every candidate of the Blender is the constant. -/
theorem constantLineIsAFixedPoint : Obligations.ConstantLineIsAFixedPoint := by
  intro f w d t p q v hv h
  have hmask : (maskEngine f w t p q).mask = true := maskOf_of_constant h t
  have hhev : (maskEngine f w t p q).hev = false := hevOf_of_constant h t
  exact ⟨hmask, hhev, fun k hk => blend_of_constant h hv hmask hhev hk⟩

end Sys2Proof.Machine
end

section
/-! Of 45_orientation_adapter.md: the strides for which the footprint has no repeated address (R181). -/

namespace Sys2Proof.Machine

/-- Rows of `A` adjacent addresses, `s` apart: a row reaches the next exactly when `s` is less than `A`. -/
theorem grid_injective_iff {A B : Nat} (hB : 2 ≤ B) (s : Int) :
    (∀ x < A, ∀ y < B, ∀ x' < A, ∀ y' < B, (x : Int) + y * s = x' + y' * s → x = x' ∧ y = y') ↔ (A : Int) ≤ |s| := by
  constructor
  · intro h
    by_contra hlt
    have habs := Int.natCast_natAbs s
    have hs : s.natAbs < A := by omega
    rcases le_total 0 s with hpos | hneg
    · have hrow := h s.natAbs hs 0 (by omega) 0 (by omega) 1 hB (by rw [habs, abs_of_nonneg hpos]; push_cast; ring)
      exact absurd hrow.2 (by decide)
    · have hrow := h s.natAbs hs 1 hB 0 (by omega) 0 (by omega) (by rw [habs, abs_of_nonpos hneg]; push_cast; ring)
      exact absurd hrow.2 (by decide)
  · intro hs x hx y hy x' hx' y' hy' heq
    have hdvd : |s| ∣ (x : Int) - x' := (abs_dvd _ _).mpr ⟨y' - y, by linear_combination heq⟩
    have hclose : |(x : Int) - x'| < |s| := by
      rw [abs_lt]
      omega
    have hcol : (x : Int) - x' = 0 := Int.eq_zero_of_abs_lt_dvd hdvd hclose
    have hs0 : s ≠ 0 := by
      rintro rfl
      rw [abs_zero] at hs
      omega
    have hrow : (y : Int) = y' := mul_right_cancel₀ hs0 (by linear_combination heq - hcol)
    omega

theorem addrAt_eq_iff_of_horizontal {c : Cmd} (ho : c.orient = .horizontal) (n j n' j' : Nat) :
    c.addrAt n j = c.addrAt n' j' ↔ (n : Int) + j * c.stride = n' + j' * c.stride := by
  simp only [Cmd.addrAt, Cmd.lineStep, Cmd.sampleStep, ho]
  constructor <;> intro h <;> linear_combination h

theorem addrAt_eq_iff_of_vertical {c : Cmd} (ho : c.orient = .vertical) (n j n' j' : Nat) :
    c.addrAt n j = c.addrAt n' j' ↔ (j : Int) + n * c.stride = j' + n' * c.stride := by
  simp only [Cmd.addrAt, Cmd.lineStep, Cmd.sampleStep, ho]
  constructor <;> intro h <;> linear_combination h

/-- Settles O30: a horizontal edge is `2K` rows of `E × L` adjacent addresses, a vertical edge `E × L` rows of `2K`. -/
theorem footprintDistinctExactlyForWideStrides : Obligations.FootprintDistinctExactlyForWideStrides := by
  intro c L
  refine ⟨fun ho _ => ?_, fun ho hlines => ?_⟩
  · have hK : 2 ≤ 2 * c.width.K := Nat.mul_le_mul_left 2 (Width.K_pos c.width)
    rw [footprint_nodup_iff, ← grid_injective_iff hK]
    simp only [addrAt_eq_iff_of_horizontal ho]
  · have hcast : (2 * c.width.K : Int) = (2 * c.width.K : Nat) := (Nat.cast_mul 2 _).symm
    rw [footprint_nodup_iff, hcast, ← grid_injective_iff hlines]
    simp only [addrAt_eq_iff_of_vertical ho]
    exact ⟨fun h x hx y hy x' hx' y' hy' heq => (h y hy x hx y' hy' x' hx' heq).symm,
      fun h n hn j hj n' hn' j' hj' heq => (h j hj n hn j' hj' n' hn' heq).symm⟩

end Sys2Proof.Machine
end

section
/-! Of 46_commands.md: a command whose lines all fail `mask` (R209). -/

namespace Sys2Proof.Machine

/-- A line without `mask` keeps its samples at the written addresses. -/
theorem InContract.sample_without_mask {cfg : Config} {m : Memory} {c : Cmd} (hin : InContract cfg m c) {n : Nat}
    (hn : n < c.nLines cfg.linesPerSegment) (hmask : (lineMasks cfg m c n).mask = false) {k : Nat}
    (hk : k < c.width.M) :
    (commandMemory cfg m c).sample (c.addrP n k) = m.sample (c.addrP n k) ∧
    (commandMemory cfg m c).sample (c.addrQ n k) = m.sample (c.addrQ n k) := by
  have hK : k < c.width.K := hk.trans_le (Width.M_le_K c.width)
  obtain ⟨hleftP, hleftQ⟩ := hin.sample_written hn hk
  obtain ⟨hP, hQ⟩ := blend_without_mask (hin.gatheredP_le_pmax hn) (hin.gatheredQ_le_pmax hn) hmask hk
  exact ⟨Int.ofNat_inj.mp (hleftP.trans (hP.trans (px_gatheredP m c n hK))),
    Int.ofNat_inj.mp (hleftQ.trans (hQ.trans (px_gatheredQ m c n hK)))⟩

/-- Settles O37: outside the write set the frame applies, and each written sample is the original one. -/
theorem commandWithoutMaskLeavesMemory : Obligations.CommandWithoutMaskLeavesMemory := by
  intro i s t h hmask a
  rw [exec_eq_runCommand] at h
  obtain ⟨e, -, hin, rfl⟩ := (runCommand_eq_next_iff _ _ _).mp h
  by_cases ha : ∃ b ∈ i.cmd.writeSet s.cfg.linesPerSegment, b.toNat = a
  · obtain ⟨b, hb, rfl⟩ := ha
    obtain ⟨n, hn, k, hk, hbk⟩ := mem_writeSet.mp hb
    obtain ⟨hP, hQ⟩ := hin.sample_without_mask hn (hmask n hn) hk
    rcases hbk with rfl | rfl
    · exact read_eq_of_sample_eq hP
    · exact read_eq_of_sample_eq hQ
  · exact commandMemory_frame _ _ _ a fun b hb hba => ha ⟨b, hb, hba⟩

end Sys2Proof.Machine
end

section
/-! The obligations of 70_reset_and_hazards.md: what an interrupting reset leaves (R240, R242), and a machine left to
itself (R256). -/

namespace Sys2Proof.Machine

/-! ### The machine left to itself (R240, R256) -/

theorem firstBusy_eq_none_iff {es : List Engine} : firstBusy es = none ↔ ∀ e ∈ es, e.st = .idle := by
  induction es with
  | nil => simp [firstBusy]
  | cons e es ih => cases hst : e.st <;> simp [firstBusy, hst, ih]

/-- With no event left a step completes the command of one engine, unless every engine is `IDLE`. -/
theorem step_alone_cases {s : State} (h : Consistent s) (hscript : s.inputs = []) :
    ((∀ e ∈ s.engines, e.st = .idle) ∧ step s = .next (clearDone s)) ∨
    ∃ e eng c, s.engines[e]? = some eng ∧ eng.command = some c ∧
      step s = .next (commandState c { clearDone s with cur := e } { eng with done := false }) := by
  rw [step_nil hscript, idleStep]
  cases hfirst : firstBusy (clearDone s).engines with
  | none =>
    have hidle := firstBusy_eq_none_iff.mp hfirst
    rw [clearDone_engines, List.forall_mem_map] at hidle
    exact .inl ⟨hidle, rfl⟩
  | some e =>
    obtain ⟨f, hf, hbusy⟩ := firstBusy_eq_some hfirst
    rw [clearDone_engines, List.getElem?_map] at hf
    obtain ⟨eng, he, rfl⟩ := Option.map_eq_some_iff.mp hf
    obtain ⟨c, hc, hin⟩ := h.accepted eng (List.mem_of_getElem? he) hbusy
    exact .inr ⟨e, eng, c, he, hc, (engineTurn_eq_next_iff _ _ _).mpr
      ⟨_, getElem?_clearDone he, .inr ⟨c, hc, hin, rfl⟩⟩⟩

/-- How many commands are in progress. -/
def busyCount (es : List Engine) : Nat := es.countP fun e => decide (e.st = .busy)

theorem busyCount_le_length (es : List Engine) : busyCount es ≤ es.length := List.countP_le_length

theorem busyCount_eq_zero_iff {es : List Engine} : busyCount es = 0 ↔ ∀ e ∈ es, e.st = .idle := by
  have hnot (e : Engine) : ¬e.st = .busy ↔ e.st = .idle := by cases e.st <;> decide
  simp [busyCount, List.countP_eq_zero, hnot]

/-- Deasserting `done` completes nothing. -/
theorem busyCount_clearDone (s : State) : busyCount (clearDone s).engines = busyCount s.engines := by
  simp [busyCount, List.countP_map, Function.comp_def]

/-- A completion takes one command out of progress. -/
theorem busyCount_set_idle {es : List Engine} {e : Nat} {eng f : Engine} (he : es[e]? = some eng)
    (hbusy : eng.st = .busy) (hidle : f.st = .idle) : busyCount (es.set e f) + 1 = busyCount es := by
  obtain ⟨hlt, rfl⟩ := List.getElem?_eq_some_iff.mp he
  have hpos : 0 < busyCount es := List.countP_pos_iff.mpr ⟨_, List.getElem_mem hlt, decide_eq_true hbusy⟩
  rw [busyCount, List.countP_set hlt, if_pos (decide_eq_true hbusy), if_neg (by simp [hidle])]
  exact Nat.sub_add_cancel hpos

/-- Each step of a machine left to itself takes one command out of progress, while there is one. -/
theorem exists_step_alone {s : State} (h : Consistent s) (hscript : s.inputs = []) :
    ∃ t, step s = .next t ∧ t.inputs = [] ∧ busyCount t.engines ≤ busyCount s.engines - 1 := by
  rcases step_alone_cases h hscript with ⟨hidle, hstep⟩ | ⟨e, eng, c, he, hc, hstep⟩
  · refine ⟨_, hstep, hscript, ?_⟩
    rw [busyCount_clearDone, busyCount_eq_zero_iff.mpr hidle]
  · refine ⟨_, hstep, hscript, Nat.le_sub_of_add_le (le_of_eq ?_)⟩
    rw [← busyCount_clearDone s]
    exact busyCount_set_idle (getElem?_clearDone he) (command_eq_some hc).1 rfl

theorem run_succ_of_step {M : Host.Core} {s t : M.State} (h : M.step s = .next t) (k : Nat) :
    M.run (k + 1) s = M.run k t := by
  rw [Host.Core.run, h]

/-- As many steps as there are commands in progress complete them all. -/
theorem exists_run_idle (k : Nat) {s : State} (h : Consistent s) (hscript : s.inputs = [])
    (hk : busyCount s.engines ≤ k) :
    ∃ t : State, core.run k s = .next t ∧ (∀ e ∈ t.engines, e.st = .idle) ∧ Consistent t := by
  induction k generalizing s with
  | zero => exact ⟨s, rfl, busyCount_eq_zero_iff.mp (Nat.le_zero.mp hk), h⟩
  | succ k ih =>
    obtain ⟨t, hstep, hscript', hcount⟩ := exists_step_alone h hscript
    obtain ⟨u, hrun, hu⟩ := ih (stepKeepsInvariant s t h hstep) hscript' (by omega)
    exact ⟨u, (run_succ_of_step (M := core) hstep k).trans hrun, hu⟩

/-- Settles O52: each step takes one command out of progress, and there are at most as many as engines. -/
theorem acceptedCommandsDrain : Obligations.AcceptedCommandsDrain := fun s h hscript =>
  exists_run_idle s.engines.length h hscript (busyCount_le_length s.engines)

/-! ### What an interrupting reset leaves (R240, R242) -/

/-- An address reads as before a list of writes, or as one of them wrote it. -/
theorem Memory.read_writeAll_eq_or_mem (m : Memory) (ws : List (Nat × Sample)) (a : Nat) :
    (m.writeAll ws).read a = m.read a ∨ (a, (m.writeAll ws).read a) ∈ ws := by
  induction ws generalizing m with
  | nil => exact .inl rfl
  | cons w ws ih =>
    rw [Memory.writeAll_cons]
    rcases ih (m.write w.1 w.2) with hkept | hmem
    · rw [hkept, Memory.read_write]
      by_cases haw : a = w.1
      · rw [if_pos haw, haw]
        exact .inr List.mem_cons_self
      · exact .inl (if_neg haw)
    · exact .inr (List.mem_cons_of_mem _ hmem)

/-- After an abandoned command an address reads as before, or as the command would have left it. -/
theorem read_abandon_eq_or_mem (cfg : Config) (ctr : Nat) (m : Memory) (e : Engine) (a : Nat) :
    (abandon cfg ctr m e).read a = m.read a ∨
    ∃ c, e.command = some c ∧ (a, (abandon cfg ctr m e).read a) ∈ commandStores cfg m c := by
  unfold abandon
  split
  · exact .inl rfl
  · rename_i c hc
    split
    · exact .inl rfl
    · rw [work_stores]
      exact (Memory.read_writeAll_eq_or_mem m _ a).imp_right fun hmem => ⟨c, hc, (List.mem_filter.mp hmem).1⟩

section
variable {s : State} {e : Engine} {es : List Engine} (h : Consistent { s with engines := e :: es }) (ctr : Nat)
include h

theorem Consistent.tail_engines : Consistent { s with engines := es } :=
  { h with
    accepted := fun f hf => h.accepted f (List.mem_cons_of_mem e hf)
    apart := (List.pairwise_cons.mp h.apart).2 }

/-- An abandoned command leaves what another engine holds. -/
theorem Consistent.sample_abandon {f : Engine} (hf : f ∈ es) {a : Int} (ha : a ∈ f.held s.cfg.linesPerSegment) :
    (abandon s.cfg ctr s.mem e).sample a = s.mem.sample a := by
  have hapart := (List.pairwise_cons.mp h.apart).1
  have hapos : 0 ≤ a := h.held_nonneg (List.mem_cons_of_mem e hf) ha
  refine congrArg BitVec.toNat (Classical.not_not.mp fun hne => ?_)
  obtain ⟨c, hc, b, hb, hba⟩ := mayWrite_of_read_abandon_ne hne
  have hheld : b ∈ e.held s.cfg.linesPerSegment := by
    rw [held_of_command _ hc]
    exact writeSet_subset_footprint hb
  have hbpos : 0 ≤ b := h.held_nonneg List.mem_cons_self hheld
  obtain rfl : b = a := by omega
  exact hapart f hf b hheld ha

/-- So the invariant holds of the other engines alone. -/
theorem Consistent.abandon : Consistent { s with mem := abandon s.cfg ctr s.mem e, engines := es } :=
  h.tail_engines.set_mem (h.legal.abandon ctr e) fun _ hf _ ha => h.sample_abandon ctr hf ha

/-- And the commands of the other engines would leave what they would have left before. -/
theorem Consistent.commandStores_abandon {f : Engine} (hf : f ∈ es) {c : Cmd} (hc : f.command = some c) :
    commandStores s.cfg (Machine.abandon s.cfg ctr s.mem e) c = commandStores s.cfg s.mem c := by
  refine commandStores_congr fun a ha => h.sample_abandon ctr hf ?_
  rwa [held_of_command _ hc]

end

/-- After a reset an address reads as before, or as a command that was in progress would have left it. -/
theorem read_foldl_abandon_eq_or_mem {s : State} (ctr : Nat) {es : List Engine}
    (h : Consistent { s with engines := es }) (a : Nat) :
    (es.foldl (abandon s.cfg ctr) s.mem).read a = s.mem.read a ∨
    ∃ e ∈ es, ∃ c, e.command = some c ∧
      (a, (es.foldl (abandon s.cfg ctr) s.mem).read a) ∈ commandStores s.cfg s.mem c := by
  induction es generalizing s with
  | nil => exact .inl rfl
  | cons e es ih =>
    rw [List.foldl_cons]
    rcases ih (s := { s with mem := abandon s.cfg ctr s.mem e }) (h.abandon ctr) with hkept | ⟨f, hf, c, hc, hmem⟩
    · rw [hkept]
      exact (read_abandon_eq_or_mem s.cfg ctr s.mem e a).imp_right fun ⟨c, hc, hmem⟩ =>
        ⟨e, List.mem_cons_self, c, hc, hmem⟩
    · rw [h.commandStores_abandon ctr hf hc] at hmem
      exact .inr ⟨f, List.mem_cons_of_mem e hf, c, hc, hmem⟩

/-- A store of a command puts one of its results at the address of that result. -/
theorem InContract.result_of_mem_commandStores {cfg : Config} {m m' : Memory} {c : Cmd} (hin : InContract cfg m c)
    {a : Nat} (h : (a, m'.read a) ∈ commandStores cfg m c) :
    ∃ n < c.nLines cfg.linesPerSegment, ∃ k < c.width.M,
      ((a : Int) = c.addrP n k ∧ (m'.sample a : Int) = resultP cfg m c n k) ∨
      ((a : Int) = c.addrQ n k ∧ (m'.sample a : Int) = resultQ cfg m c n k) := by
  have hread : (commandMemory cfg m c).read a = m'.read a :=
    Memory.read_writeAll_of_mem m _ _ h (commandStores_keys_nodup hin)
  have hsample : (commandMemory cfg m c).sample a = m'.sample a := congrArg BitVec.toNat hread
  obtain ⟨b, hb, rfl⟩ : ∃ b ∈ c.writeSet cfg.linesPerSegment, b.toNat = a := exists_writeSet_of_mem_commandStores h
  rw [Int.toNat_of_nonneg (hin.inside b (writeSet_subset_footprint hb)).1] at hsample ⊢
  obtain ⟨n, hn, k, hk, hab⟩ := mem_writeSet.mp hb
  obtain ⟨hP, hQ⟩ := hin.sample_written hn hk
  rw [← hsample]
  exact ⟨n, hn, k, hk, hab.imp (fun e => ⟨e, e ▸ hP⟩) fun e => ⟨e, e ▸ hQ⟩⟩

theorem step_reset {s : State} {rest : List Input} (hscript : s.inputs = .reset :: rest) :
    step s = .next (resetEvent (eventState s)) := step_cons hscript

/-- Settles O47: the abandoned commands hold disjoint footprints, so each has gathered from the memory the reset found,
and a sample that changed is one of its stores. -/
theorem resetKeepsOrFinishesEachSample : Obligations.ResetKeepsOrFinishesEachSample := by
  intro s rest hscript h
  have hstores := read_foldl_abandon_eq_or_mem (s := eventState s) s.freeCtr h.eventState
  refine ⟨_, step_reset hscript, ?_, by simp, fun a => ?_, fun hidle a => ?_⟩
  · rw [resetEvent_engines, List.forall_mem_map]
    exact fun _ _ => ⟨rfl, rfl⟩
  · refine (hstores a).imp_right fun ⟨e, he, c, hc, hmem⟩ => ?_
    obtain ⟨f, hf, rfl⟩ := List.mem_map.mp he
    obtain ⟨j, hj⟩ := List.mem_iff_getElem?.mp hf
    exact ⟨f, hf, c, hc, (h.inContract hj hc).result_of_mem_commandStores hmem⟩
  · refine (hstores a).resolve_right fun ⟨e, he, c, hc, _⟩ => ?_
    obtain ⟨f, hf, rfl⟩ := List.mem_map.mp he
    exact nomatch (hidle f hf).symm.trans (command_eq_some hc).1

end Sys2Proof.Machine
end
